-- ==== Sys2Proof/Word.lean ====
section
/-! DEFINITION. The values of the FCPE: bytes, 32-bit words and byte sequences in wire order
(spec/00_scope.md section 5 and rule R12, spec/20_memory.md rule R43). -/

namespace Sys2Proof

/-- An element of a byte sequence (R12): 8 bits, unsigned. -/
abbrev Byte := BitVec 8

/-- A 32-bit value: the header word `W`, the word `X`, a CRC, `rword`. -/
abbrev Word := BitVec 32

/-- A byte sequence in wire order: index 0 is the first byte sent or received (R43). -/
abbrev Bytes := List Byte

end Sys2Proof
end

