-- ==== Sys2Proof/Config.lean ====
section
/-! DEFINITION. The elaboration parameters of an FCPE instance (spec/00_scope.md rules R3 to R11).
The spec leaves them open and says that a model takes them as arguments: they are plain data,
an instance's State carries its own (spec/60_exceptions.md rule R214), and no operation writes
them (spec/10_state.md rule R26). There is no free value: the spec leaves no result open. -/

namespace Sys2Proof

/-- FRAMING (R6): whether Encode writes a trailing delimiter. -/
inductive Framing where
  | both
  | leadingOnly
  deriving DecidableEq, Repr

/-- CRC_FIELD_ORDER (R10): the byte order of the CRC-framed variant's checksum field. -/
inductive FieldOrder where
  | le
  | be
  deriving DecidableEq, Repr

/-- The parameter set of spec/00_scope.md section 4. -/
structure Params where
  /-- DELIM, the delimiter byte (R3). -/
  delim : Byte
  /-- ESC, the escape byte (R3). -/
  esc : Byte
  /-- MASK, the XOR mask (R3). -/
  mask : Byte
  /-- FRAME_CAP, the capacity of the frame buffer in bytes (R5). -/
  frameCap : Nat
  /-- FRAMING (R6). -/
  framing : Framing
  /-- SUM_ADDR, the address byte PKT_BUILD_SUM writes (R7). -/
  sumAddr : Byte
  /-- SUM_RX_ADDR_OK (R8): bit `a` is 1 exactly when the predicate accepts the byte `a`, so that
  each total predicate on bytes is exactly one value of this field. DESIGN CHOICE, log 10, safe. -/
  sumRxAddrOk : BitVec 256
  /-- The first byte of CRC_MAGIC in wire order (R9). -/
  crcMagic0 : Byte
  /-- The second byte of CRC_MAGIC in wire order (R9). -/
  crcMagic1 : Byte
  /-- CRC_FIELD_ORDER (R10). -/
  crcFieldOrder : FieldOrder
  /-- MAX_PKT_SUM, the largest summation packet in bytes (R11). -/
  maxPktSum : Nat
  /-- MAX_PKT_CRC, the largest CRC-framed packet in bytes (R11). -/
  maxPktCrc : Nat
  deriving DecidableEq, Repr

/-- The predicate SUM_RX_ADDR_OK (R8). -/
def Params.rxAddrOk (p : Params) (a : Byte) : Bool := p.sumRxAddrOk.getLsbD a.toNat

/-- The 2-byte sequence CRC_MAGIC in wire order (R9). -/
def Params.crcMagic (p : Params) : Bytes := [p.crcMagic0, p.crcMagic1]

/-- The one parameter set that spec/95_test_vectors.md section 0 fixes for its vectors: the
defaults of R3, R6 and R10, and the values "chosen for the vectors only" for the OPEN parameters.
DESIGN CHOICE, log 2, unsafe where a claim is about this instance and not about every instance. -/
def Params.vectors : Params where
  delim := 0x7E
  esc := 0x7D
  mask := 0x20
  frameCap := 16
  framing := .both
  sumAddr := 0x50
  sumRxAddrOk := 1#256 <<< 0x50
  crcMagic0 := 0xAA
  crcMagic1 := 0x55
  crcFieldOrder := .le
  maxPktSum := 16
  maxPktCrc := 32

end Sys2Proof
end

