-- ==== Sys2Proof/Syntax.lean ====
section
/-! DEFINITION. The ten operations of the FCPE, one constructor per row of
spec/opcode_table.json (spec/30_encoding.md rule R64), with the operands of rule R63. -/

namespace Sys2Proof

/-- An operation with its operands. A data operand has 0 to 65535 bytes (`Instr.wf`). -/
inductive Instr where
  /-- DEC_BYTE b (format FB): feed one byte to the decoder (40_frame_codec.md R110). -/
  | decByte (b : Byte)
  /-- ENC_FRAME D (format FS): encode one frame (40_frame_codec.md R102). -/
  | encFrame (d : Bytes)
  /-- PKT_BUILD_SUM t, P (format FT): build a summation packet (41_packet.md R132). -/
  | pktBuildSum (t : Byte) (p : Bytes)
  /-- PKT_PARSE_SUM R (format FS): parse a summation packet (41_packet.md R133). -/
  | pktParseSum (r : Bytes)
  /-- PKT_BUILD_CRC t, P (format FT): build a CRC-framed packet (41_packet.md R134). -/
  | pktBuildCrc (t : Byte) (p : Bytes)
  /-- PKT_PARSE_CRC R (format FS): parse a CRC-framed packet (41_packet.md R135). -/
  | pktParseCrc (r : Bytes)
  /-- SUM_GEN S (format FS): summation checksum of a span (42_checksums.md R162). -/
  | sumGen (d : Bytes)
  /-- SUM_CHECK k, S (format FT): validate a summation checksum (42_checksums.md R163). -/
  | sumCheck (k : Byte) (d : Bytes)
  /-- CRC_GEN S (format FS): CRC-32 of a sequence (42_checksums.md R166). -/
  | crcGen (d : Bytes)
  /-- CRC_CHECK x, S (format FC): validate a CRC-32 (42_checksums.md R167). -/
  | crcCheck (x : Word) (d : Bytes)
  deriving DecidableEq, Repr

/-- The data bytes `D` that follow the header (and `X`): none in format FB (R62). -/
def Instr.data : Instr → Bytes
  | .decByte _ => []
  | .encFrame d => d
  | .pktBuildSum _ p => p
  | .pktParseSum r => r
  | .pktBuildCrc _ p => p
  | .pktParseCrc r => r
  | .sumGen d => d
  | .sumCheck _ d => d
  | .crcGen d => d
  | .crcCheck _ d => d

end Sys2Proof
end

