-- ==== Sys2Proof/WellFormed.lean ====
section
/-! DEFINITION. What makes an operation encodable (spec/30_encoding.md rules R61 and R71) and an
elaboration legal (spec/00_scope.md rules R4, R5 and R11). -/

namespace Sys2Proof

/-- The 16-bit `len` field counts the data bytes: 0 to 65535 of them (R61). -/
def Instr.wf (i : Instr) : Bool := decide (i.data.length ≤ 65535)

/-- R4: `DELIM != ESC`, `MASK != 0x00` and `MASK != (DELIM ^ ESC)`. -/
def Params.bytesLegal (p : Params) : Bool :=
  decide (p.delim ≠ p.esc) && decide (p.mask ≠ 0) && decide (p.mask ≠ p.delim ^^^ p.esc)

/-- R5: `1 <= FRAME_CAP <= 65535`. -/
def Params.capLegal (p : Params) : Bool := decide (1 ≤ p.frameCap) && decide (p.frameCap ≤ 65535)

/-- R11 and the parameter table: MAX_PKT_SUM is 3..65535 and MAX_PKT_CRC is 7..65535. -/
def Params.sizesLegal (p : Params) : Bool :=
  decide (3 ≤ p.maxPktSum) && decide (p.maxPktSum ≤ 65535) &&
    decide (7 ≤ p.maxPktCrc) && decide (p.maxPktCrc ≤ 65535)

/-- The elaborations the block is defined for. "An elaboration that breaks one of them is refused"
(R4); that a value outside the ranges of R5 and R11 is no elaboration either is DEDUCED, log 3,
safe. -/
def Params.legal (p : Params) : Bool := p.bytesLegal && p.capLegal && p.sizesLegal

end Sys2Proof
end

