-- ==== Sys2Proof/Decode.lean ====
section
/-! DEFINITION. From the bytes on the command port to an operation and back
(spec/30_encoding.md rules R60 to R68, spec/20_memory.md rule R45). -/

namespace Sys2Proof

/-! ### The fields of a header word (R61) -/

/-- `op`, W[7:0]. -/
def opField (w : Word) : Byte := w.extractLsb' 0 8

/-- `imm8`, W[15:8]. -/
def imm8Field (w : Word) : Byte := w.extractLsb' 8 8

/-- `len`, W[31:16], as the count it is. -/
def lenField (w : Word) : Nat := (w.extractLsb' 16 16).toNat

/-! ### The opcode map (R64) -/

def opDecByte : Byte := 0x01#8
def opEncFrame : Byte := 0x10#8
def opPktBuildSum : Byte := 0x20#8
def opPktParseSum : Byte := 0x21#8
def opPktBuildCrc : Byte := 0x22#8
def opPktParseCrc : Byte := 0x23#8
def opSumGen : Byte := 0x30#8
def opSumCheck : Byte := 0x31#8
def opCrcGen : Byte := 0x32#8
def opCrcCheck : Byte := 0x33#8

/-- The four formats of R62, each with the operation its operands build. -/
inductive Shape where
  /-- FB: the byte operand `imm8`; `len` must be 0. -/
  | fb (mk : Byte → Instr)
  /-- FS: `len` data bytes; `imm8` must be 0. -/
  | fs (mk : Bytes → Instr)
  /-- FT: the byte operand `imm8` and `len` data bytes. -/
  | ft (mk : Byte → Bytes → Instr)
  /-- FC: the word `X` and `len` data bytes; `imm8` must be 0. -/
  | fc (mk : Word → Bytes → Instr)

/-- The rows of R64. `none` is a reserved `op` (R65). -/
def shapeOf (op : Byte) : Option Shape :=
  if op = opDecByte then some (.fb .decByte)
  else if op = opEncFrame then some (.fs .encFrame)
  else if op = opPktBuildSum then some (.ft .pktBuildSum)
  else if op = opPktParseSum then some (.fs .pktParseSum)
  else if op = opPktBuildCrc then some (.ft .pktBuildCrc)
  else if op = opPktParseCrc then some (.fs .pktParseCrc)
  else if op = opSumGen then some (.fs .sumGen)
  else if op = opSumCheck then some (.ft .sumCheck)
  else if op = opCrcGen then some (.fs .crcGen)
  else if op = opCrcCheck then some (.fc .crcCheck)
  else none

/-! ### Bytes and words on the port -/

/-- A 32-bit word on a byte channel: least significant byte first (R45). -/
def wordBytes (w : Word) : Bytes :=
  [w.extractLsb' 0 8, w.extractLsb' 8 8, w.extractLsb' 16 8, w.extractLsb' 24 8]

/-- The word whose bytes come first on the port, and the bytes after it. -/
def takeWord : Bytes → Option (Word × Bytes)
  | b0 :: b1 :: b2 :: b3 :: rest => some (b3 ++ b2 ++ b1 ++ b0, rest)
  | _ => none

/-- The first `n` bytes on the port and the bytes after them, when there are `n`. -/
def takeBytes (n : Nat) (bs : Bytes) : Option (Bytes × Bytes) :=
  if bs.length < n then none else some (bs.take n, bs.drop n)

/-! ### The decoder -/

/-- What stands first on the command port. Every case but `incomplete` says what is left of the
port's bytes once the command is consumed. -/
inductive Decoded where
  /-- A command that spells an operation. -/
  | instr (i : Instr) (rest : Bytes)
  /-- A command with a reserved `op`: refused, its `len` data bytes consumed (R65). -/
  | reservedOp (op : Byte) (rest : Bytes)
  /-- A command whose `op` is defined and whose must-be-zero field is not zero (R66). -/
  | nonZeroField (op : Byte) (rest : Bytes)
  /-- The command is not all there yet: the block goes on waiting for the host. -/
  | incomplete
  deriving DecidableEq, Repr

/-- Hand the `len` data bytes to `k`, or wait for them. -/
def withData (len : Nat) (bs : Bytes) (k : Bytes → Bytes → Decoded) : Decoded :=
  match takeBytes len bs with
  | some (d, rest) => k d rest
  | none => .incomplete

/-- The command whose header word is `w` and whose further bytes come first in `bs`. The lengths
consumed are those of R60, R65, R66 and R68: a format FB command is its header alone, also when
its `len` is not 0. -/
def decodeAfterHeader (w : Word) (bs : Bytes) : Decoded :=
  match shapeOf (opField w) with
  | none => withData (lenField w) bs fun _ rest => .reservedOp (opField w) rest
  | some (.fb mk) =>
    if lenField w = 0 then .instr (mk (imm8Field w)) bs else .nonZeroField (opField w) bs
  | some (.fs mk) =>
    withData (lenField w) bs fun d rest =>
      if imm8Field w = 0 then .instr (mk d) rest else .nonZeroField (opField w) rest
  | some (.ft mk) => withData (lenField w) bs fun d rest => .instr (mk (imm8Field w) d) rest
  | some (.fc mk) =>
    match takeWord bs with
    | none => .incomplete
    | some (x, bs') =>
      withData (lenField w) bs' fun d rest =>
        if imm8Field w = 0 then .instr (mk x d) rest else .nonZeroField (opField w) rest

/-- The decoder: total on any bytes. -/
def decode (bs : Bytes) : Decoded :=
  match takeWord bs with
  | none => .incomplete
  | some (w, rest) => decodeAfterHeader w rest

/-- The length of a command in bytes, from its header word alone (R68; R66 for format FB). -/
def commandLength (w : Word) : Nat :=
  if opField w = opDecByte then 4
  else if opField w = opCrcCheck then 8 + lenField w
  else 4 + lenField w

/-! ### The encoder -/

/-- The `op` field of an operation (R64). -/
def Instr.op : Instr → Byte
  | .decByte _ => opDecByte
  | .encFrame _ => opEncFrame
  | .pktBuildSum _ _ => opPktBuildSum
  | .pktParseSum _ => opPktParseSum
  | .pktBuildCrc _ _ => opPktBuildCrc
  | .pktParseCrc _ => opPktParseCrc
  | .sumGen _ => opSumGen
  | .sumCheck _ _ => opSumCheck
  | .crcGen _ => opCrcGen
  | .crcCheck _ _ => opCrcCheck

/-- The `imm8` field of an operation: its byte operand in formats FB and FT, else 0 (R62). -/
def Instr.imm8 : Instr → Byte
  | .decByte b => b
  | .pktBuildSum t _ => t
  | .pktBuildCrc t _ => t
  | .sumCheck k _ => k
  | .encFrame _ => 0
  | .pktParseSum _ => 0
  | .pktParseCrc _ => 0
  | .sumGen _ => 0
  | .crcGen _ => 0
  | .crcCheck _ _ => 0

/-- The bytes of `X`, which only CRC_CHECK has (R60). -/
def Instr.xBytes : Instr → Bytes
  | .crcCheck x _ => wordBytes x
  | .decByte _ => []
  | .encFrame _ => []
  | .pktBuildSum _ _ => []
  | .pktParseSum _ => []
  | .pktBuildCrc _ _ => []
  | .pktParseCrc _ => []
  | .sumGen _ => []
  | .sumCheck _ _ => []
  | .crcGen _ => []

/-- A header word from its three fields (R61). -/
def headerWord (op imm8 : Byte) (len : Nat) : Word := BitVec.ofNat 16 len ++ imm8 ++ op

/-- The header word `W` of an operation. -/
def Instr.header (i : Instr) : Word := headerWord i.op i.imm8 i.data.length

/-- The bytes of a well-formed operation's command: `W`, then `X` where there is one, then the
data (R60), each word least significant byte first (R45). -/
def encode (i : Instr) : Bytes := wordBytes i.header ++ i.xBytes ++ i.data

/-! ### The match and mask table (R64) -/

/-- A row of the match and mask table: `W` spells the operation when `(W & mask) = match`. -/
structure OpcodeRow where
  mnemonic : String
  pattern : Word
  mask : Word
  deriving DecidableEq, Repr

/-- The rows of R64's second table, in its order. -/
def opcodeRows : List OpcodeRow :=
  [ ⟨"DEC_BYTE", 0x00000001, 0xFFFF00FF⟩,
    ⟨"ENC_FRAME", 0x00000010, 0x0000FFFF⟩,
    ⟨"PKT_BUILD_SUM", 0x00000020, 0x000000FF⟩,
    ⟨"PKT_PARSE_SUM", 0x00000021, 0x0000FFFF⟩,
    ⟨"PKT_BUILD_CRC", 0x00000022, 0x000000FF⟩,
    ⟨"PKT_PARSE_CRC", 0x00000023, 0x0000FFFF⟩,
    ⟨"SUM_GEN", 0x00000030, 0x0000FFFF⟩,
    ⟨"SUM_CHECK", 0x00000031, 0x000000FF⟩,
    ⟨"CRC_GEN", 0x00000032, 0x0000FFFF⟩,
    ⟨"CRC_CHECK", 0x00000033, 0x0000FFFF⟩ ]

/-- A word matches a row when `(W & mask) = match` (R64). -/
def OpcodeRow.accepts (r : OpcodeRow) (w : Word) : Bool := decide (w &&& r.mask = r.pattern)

/-- The mnemonic of an operation, as R64 spells it. -/
def Instr.mnemonic : Instr → String
  | .decByte _ => "DEC_BYTE"
  | .encFrame _ => "ENC_FRAME"
  | .pktBuildSum _ _ => "PKT_BUILD_SUM"
  | .pktParseSum _ => "PKT_PARSE_SUM"
  | .pktBuildCrc _ _ => "PKT_BUILD_CRC"
  | .pktParseCrc _ => "PKT_PARSE_CRC"
  | .sumGen _ => "SUM_GEN"
  | .sumCheck _ _ => "SUM_CHECK"
  | .crcGen _ => "CRC_GEN"
  | .crcCheck _ _ => "CRC_CHECK"

/-! ### An instruction given by the bits of the opcode table -/

/-- The `n` low bytes of `w`, least significant first. -/
def leBytes : Nat → Nat → Bytes
  | 0, _ => []
  | n + 1, w => BitVec.ofNat 8 w :: leBytes n (w / 256)

/-- The command whose first `nbits` bits are those of `w` and whose further bits are 0: the bytes
of `w` as the port carries them, then zero bytes up to the command's own length (R68). -/
def tableWordBytes (nbits w : Nat) : Bytes :=
  let given := leBytes (nbits / 8) w
  let need :=
    match takeWord (given ++ [0, 0, 0, 0]) with
    | some (h, _) => commandLength h
    | none => 4
  given ++ List.replicate (need - given.length) 0

/-- The operation the decoder reads from a table word. -/
def decodeTableWord (nbits w : Nat) : Option Instr :=
  match decode (tableWordBytes nbits w) with
  | .instr i _ => some i
  | .reservedOp _ _ => none
  | .nonZeroField _ _ => none
  | .incomplete => none

end Sys2Proof
end

