-- ==== Sys2Proof/Machine/State.lean ====
section
/-! DEFINITION. The state of an FCPE instance (spec/10_state.md), the reasons a step can stop, and
the state after reset (rule R31). -/

namespace Sys2Proof.Machine

/-- `dstate`, the decoder state (R20). The encoding 0b11 is never written, so there is no
constructor for it (spec/93_implementation_defined.md I10). -/
inductive DState where
  | awaitingFrame
  | inFrame
  /-- Transient: passed through inside a closing DEC_BYTE step alone (R21). -/
  | endFrame
  deriving DecidableEq, Repr

/-- The status codes of spec/60_exceptions.md rule R200. Codes 0x06 to 0xFF are never produced, so
there is no constructor for them (spec/93_implementation_defined.md I9). -/
inductive Status where
  | ok
  | checksumMismatch
  | invalidHeader
  | bufferOverflow
  | unsupportedOperation
  | payloadTooLarge
  deriving DecidableEq, Repr

/-- A response (R28). A field that is not given takes its default (R29); `rop` has none. -/
structure Response where
  /-- The echoed `op` field of the command word. -/
  rop : Byte
  /-- The status code. -/
  status : Status := .ok
  /-- 1 if and only if this DEC_BYTE emitted a decoded frame. -/
  fvalid : Bool := false
  /-- A byte result, per operation. -/
  rbyte : Byte := 0x00
  /-- A word result, per operation. -/
  rword : Word := 0x00000000
  /-- A byte-sequence result, per operation. -/
  rdata : Bytes := []
  deriving DecidableEq, Repr

/-- The state of one instance: its parameters, its three decoder registers (R20, R22, R23), and
what its ports carry. -/
structure State where
  /-- The elaboration parameters: fixed, written by no step (R26). Log 1. -/
  params : Params
  /-- The decoder state register (R20). -/
  dstate : DState
  /-- The frame buffer (R22). -/
  buf : Bytes
  /-- The unmask flag (R23). -/
  esc : Bool
  /-- The output port (R28): the latest response, if there is one since reset (R31). Log 7. -/
  resp : Option Response
  /-- The command port: the bytes the host has issued and the block has not consumed (R60). Log 4. -/
  cmdIn : Bytes
  /-- The reset input (spec/70_reset_and_hazards.md R230). Log 8. -/
  resetIn : Bool
  deriving DecidableEq, Repr

/-- The faults of the machine: there are none, so the type has no constructor. "An error never
stops or hangs the block" (spec/60_exceptions.md R210) and "a stuck or hung FCPE state does not
exist" (spec/70_reset_and_hazards.md R239). -/
inductive Fault where
  deriving DecidableEq, Repr

/-- The reasons a step is refused. -/
inductive Refusal where
  /-- An instruction that has no meaning yet; raised by an arm of `exec` alone. No arm raises it:
  every operation has its meaning. Safe: nothing is claimed of the instruction. -/
  | notModelled (mnemonic : String)
  /-- The parameters break spec/00_scope.md R4, R5 or R11: "An elaboration that breaks one of them
  is refused. The block is not defined for it." Raised by `step`. Safe: no step is taken. -/
  | illegalElaboration
  deriving DecidableEq, Repr

/-- The state right after a reset of an instance with the parameters `p` (R31), with nothing issued
on its command port. -/
def State.resetWith (p : Params) : State where
  params := p
  dstate := .awaitingFrame
  buf := []
  esc := false
  resp := none
  cmdIn := []
  resetIn := false

/-- The machine right after reset (R31). Reset fixes the registers and leaves the parameters to the
elaboration; the instance taken here has those of spec/95_test_vectors.md section 0.
DESIGN CHOICE, log 2, unsafe where a claim is about the parameters of this instance. -/
def State.reset : State := State.resetWith Params.vectors

end Sys2Proof.Machine
end

