-- ==== Sys2Proof/Machine/Ops.lean ====
section
/-! DEFINITION. The operations over the state that the pseudocode of spec/00_scope.md section 5
names: register writes, BufAppend, BufClear, respond, raise; and reset, the refusal of a command
and the command port (spec/30_encoding.md, spec/60_exceptions.md, spec/70_reset_and_hazards.md). -/

namespace Sys2Proof.Machine

/-! ### Encodings of the register and status values -/

/-- The 2-bit encoding of `dstate` (R20). -/
def DState.bits : DState → BitVec 2
  | .awaitingFrame => 0b00
  | .inFrame => 0b01
  | .endFrame => 0b10

/-- The numeric status code (R200). -/
def Status.code : Status → Byte
  | .ok => 0x00
  | .checksumMismatch => 0x01
  | .invalidHeader => 0x02
  | .bufferOverflow => 0x03
  | .unsupportedOperation => 0x04
  | .payloadTooLarge => 0x05

/-! ### Register writes -/

/-- `dstate <- d`. -/
def State.setDState (s : State) (d : DState) : State := { s with dstate := d }

/-- `esc <- e`. -/
def State.setEsc (s : State) (e : Bool) : State := { s with esc := e }

/-- `BufAppend(v)`: `buf <- buf ++ [v]`. -/
def State.bufAppend (s : State) (v : Byte) : State := { s with buf := s.buf ++ [v] }

/-- `BufClear()`: `buf <- []`. -/
def State.bufClear (s : State) : State := { s with buf := [] }

/-! ### The response -/

/-- `respond(...)`: the operation's one response replaces the one before it (R28). -/
def State.respond (s : State) (r : Response) : State := { s with resp := some r }

/-- `raise <Status>(info)`, the one way an error is taken: the operation ends with the status and
the context fields `info` gives; nothing is saved, no mode changes and no register is written
(R209). -/
def State.raise (s : State) (op : Byte) (st : Status) (rbyte : Byte := 0) (rword : Word := 0) :
    State :=
  s.respond { rop := op, status := st, rbyte := rbyte, rword := rword }

/-- `emit FRAME(f)`: `respond(fvalid = 1, rdata = f)`. -/
def State.emitFrame (s : State) (op : Byte) (f : Bytes) : State :=
  s.respond { rop := op, fvalid := true, rdata := f }

/-- The refusal of a command (R65, R66, R205): UnsupportedOperation with `rop = op`, and no state
written. -/
def State.refuseCommand (s : State) (op : Byte) : State := s.raise op .unsupportedOperation

/-! ### The ports -/

/-- The command port holds `bs`. -/
def State.setCmdIn (s : State) (bs : Bytes) : State := { s with cmdIn := bs }

/-- What stands first on the command port. -/
def State.fetch (s : State) : Decoded := decode s.cmdIn

/-- The reset of R230 and R31, in place of an operation: the decoder registers take their reset
values, no response is pending, and the parameters stay. The input is released, and bytes waiting
on the command port stay there: DESIGN CHOICE, log 8. -/
def State.takeReset (s : State) : State :=
  { s with dstate := .awaitingFrame, buf := [], esc := false, resp := none, resetIn := false }

end Sys2Proof.Machine
end

