-- ==== Sys2Proof/Machine/Operands.lean ====
section
/-! DEFINITION. Operand forms: subsequences of a byte sequence, zero extension, and the 4-byte CRC
field (spec/00_scope.md section 5, spec/41_packet.md rule R137). -/

namespace Sys2Proof.Machine

/-- `zext_32(v)` of a byte. -/
def zext32 (v : Byte) : Word := v.setWidth 32

/-- `zext_32(n)` of a length, a natural number. -/
def lengthWord (n : Nat) : Word := BitVec.ofNat 32 n

/-- `s[i]`, for an index inside the sequence. -/
def byteAt (s : Bytes) (i : Nat) : Byte := s.getD i 0

/-- `s[i..j]`, from index `i` to index `j` inclusive; `[]` when `j < i`. -/
def slice (s : Bytes) (i j : Nat) : Bytes := (s.take (j + 1)).drop i

/-- `s[i..]`, from index `i` to the end. -/
def sliceFrom (s : Bytes) (i : Nat) : Bytes := s.drop i

/-- `crcfield(c)`: a CRC as 4 bytes in wire order (R137). -/
def crcField (o : FieldOrder) (c : Word) : Bytes :=
  match o with
  | .le => [c.extractLsb' 0 8, c.extractLsb' 8 8, c.extractLsb' 16 8, c.extractLsb' 24 8]
  | .be => [c.extractLsb' 24 8, c.extractLsb' 16 8, c.extractLsb' 8 8, c.extractLsb' 0 8]

/-- `crcval(f)`: the `c` with `crcfield(c) = f` (R137), for a field of 4 bytes. -/
def crcVal (o : FieldOrder) (f : Bytes) : Word :=
  match o with
  | .le => byteAt f 3 ++ byteAt f 2 ++ byteAt f 1 ++ byteAt f 0
  | .be => byteAt f 0 ++ byteAt f 1 ++ byteAt f 2 ++ byteAt f 3

end Sys2Proof.Machine
end

