-- ==== Sys2Proof/Machine/Flags.lean ====
section
/-! DEFINITION. The block has no flags register (spec/10_state.md rule R26). Its one flag is `esc`,
the unmask flag (R23): this file gives what it does to a data byte, and which bytes it concerns. -/

namespace Sys2Proof.Machine

/-- `v <- (esc = 1) ? (b ^ MASK) : b` (spec/40_frame_codec.md R108). -/
def unmask (p : Params) (esc : Bool) (b : Byte) : Byte := if esc then b ^^^ p.mask else b

/-- The bytes Encode escapes: DELIM and ESC, and no other (spec/40_frame_codec.md R100). -/
def needsEscape (p : Params) (b : Byte) : Bool := decide (b = p.delim) || decide (b = p.esc)

end Sys2Proof.Machine
end

