-- ==== Sys2Proof/Machine/Checksums.lean ====
section
/-! DEFINITION. The summation checksum and the CRC-32, and the four operations that expose them
(spec/42_checksums.md). All four read and write no decoder register. -/

namespace Sys2Proof.Machine

/-! ### Summation checksum -/

/-- `sum(s)`: the natural-number sum of the bytes of `s` (spec/00_scope.md section 5). -/
def byteSum : Bytes → Nat
  | [] => 0
  | b :: s => b.toNat + byteSum s

/-- `SUM8(span)` (R160). -/
def sum8 (span : Bytes) : Byte := BitVec.ofNat 8 ((256 - byteSum span % 256) % 256)

/-- The test of R161: the checksum byte `k` is valid for `span`. -/
def sumValid (k : Byte) (span : Bytes) : Bool := decide ((k.toNat + byteSum span) % 256 = 0)

/-- SUM_GEN (R162). -/
def execSumGen (d : Bytes) (s : State) : Host.Outcome State Fault Refusal :=
  .next (s.respond { rop := opSumGen, rbyte := sum8 d })

/-- SUM_CHECK (R163). -/
def execSumCheck (k : Byte) (d : Bytes) (s : State) : Host.Outcome State Fault Refusal :=
  let c := sum8 d
  if sumValid k d then .next (s.respond { rop := opSumCheck, rbyte := c })
  else .next (s.raise opSumCheck .checksumMismatch (rbyte := c))

/-! ### CRC-32 -/

/-- The reflected polynomial (R164). -/
def crcPoly : Word := 0xEDB88320

/-- One of the eight steps of R164. -/
def crcBitStep (c : Word) : Word :=
  if c.getLsbD 0 then crcPoly ^^^ (c >>> 1) else c >>> 1

/-- `n` steps. -/
def crcBitSteps : Nat → Word → Word
  | 0, c => c
  | n + 1, c => crcBitSteps n (crcBitStep c)

/-- Entry `n` of the lookup table `T` (R164). The entry is computed by the rule's loop where the
block reads a precomputed one; that both are the table of section 4 is `test_crcTable`. -/
def crcTable (n : Byte) : Word := crcBitSteps 8 (n.setWidth 32)

/-- The update step of R165: `T[(crc ^ zext_32(b))[7:0]] ^ (crc >> 8)`. -/
def crcUpdate (crc : Word) (b : Byte) : Word :=
  crcTable ((crc ^^^ zext32 b).extractLsb' 0 8) ^^^ (crc >>> 8)

/-- The updates of R165 over a byte sequence in wire order, from a given `crc`. -/
def crcRun : Word → Bytes → Word
  | crc, [] => crc
  | crc, b :: s => crcRun (crcUpdate crc b) s

/-- `CRC32(s)` (R165). -/
def crc32 (s : Bytes) : Word := ~~~ (crcRun 0xFFFFFFFF s)

/-- CRC_GEN (R166). -/
def execCrcGen (d : Bytes) (s : State) : Host.Outcome State Fault Refusal :=
  .next (s.respond { rop := opCrcGen, rword := crc32 d })

/-- CRC_CHECK (R167). -/
def execCrcCheck (x : Word) (d : Bytes) (s : State) : Host.Outcome State Fault Refusal :=
  let c := crc32 d
  if x ≠ c then .next (s.raise opCrcCheck .checksumMismatch (rword := c))
  else .next (s.respond { rop := opCrcCheck, rword := c })

end Sys2Proof.Machine
end

