-- ==== Sys2Proof/Machine/FrameCodec.lean ====
section
/-! DEFINITION. The Frame Codec: ENC_FRAME and DEC_BYTE (spec/40_frame_codec.md). -/

namespace Sys2Proof.Machine

/-! ### Encode -/

/-- What `stuff` writes for one input byte (R100). -/
def stuffByte (p : Params) (b : Byte) : Bytes :=
  if needsEscape p b then [p.esc, b ^^^ p.mask] else [b]

/-- `stuff(data)` (R100). -/
def stuff (p : Params) : Bytes → Bytes
  | [] => []
  | b :: data => stuffByte p b ++ stuff p data

/-- What follows the stuffed bytes: the trailing delimiter under BOTH (R101). -/
def trailer (p : Params) : Bytes :=
  match p.framing with
  | .both => [p.delim]
  | .leadingOnly => []

/-- `frame(data)` (R101). -/
def frame (p : Params) (data : Bytes) : Bytes := [p.delim] ++ stuff p data ++ trailer p

/-- ENC_FRAME (R102). -/
def execEncFrame (d : Bytes) (s : State) : Host.Outcome State Fault Refusal :=
  .next (s.respond { rop := opEncFrame, rdata := frame s.params d })

/-! ### Decode -/

/-- The closing of a frame (R104), through the transient END_FRAME (R21). -/
def State.closeFrame (s : State) : State :=
  let f := s.buf
  ((((s.setDState .endFrame).bufClear).setEsc false).setDState .awaitingFrame).emitFrame opDecByte f

/-- The opening, or re-opening, of a frame (R105). -/
def State.openFrame (s : State) : State :=
  ((s.setDState .inFrame).setEsc false).respond { rop := opDecByte }

/-- A data byte in a frame: unmasked, then stored, or lost to the overflow of R109 (R108). -/
def State.dataByte (s : State) (b : Byte) : State :=
  let v := unmask s.params s.esc b
  let s1 := s.setEsc false
  if s1.buf.length = s1.params.frameCap then
    (s1.bufClear.setDState .awaitingFrame).raise opDecByte .bufferOverflow (rbyte := v)
  else
    (s1.bufAppend v).respond { rop := opDecByte }

/-- The complete step of R110. In a register combination that rules R21 and R24 of
spec/10_state.md exclude, the pseudocode is followed as it stands: DESIGN CHOICE, log 9, safe. -/
def State.feed (s : State) (b : Byte) : State :=
  if b = s.params.delim then
    if 0 < s.buf.length then s.closeFrame else s.openFrame
  else if s.dstate = .awaitingFrame then
    s.respond { rop := opDecByte }
  else if b = s.params.esc then
    (s.setEsc true).respond { rop := opDecByte }
  else
    s.dataByte b

/-- DEC_BYTE (R110). -/
def execDecByte (b : Byte) (s : State) : Host.Outcome State Fault Refusal :=
  .next (s.feed b)

end Sys2Proof.Machine
end

