-- ==== Sys2Proof/Machine/Packet.lean ====
section
/-! DEFINITION. The Packet unit: building and parsing both packet variants (spec/41_packet.md). All
four operations read and write no decoder register. -/

namespace Sys2Proof.Machine

/-! ### Summation variant (layout of R130) -/

/-- PKT_BUILD_SUM (R132). -/
def execPktBuildSum (t : Byte) (p : Bytes) (s : State) : Host.Outcome State Fault Refusal :=
  if s.params.maxPktSum < 3 + p.length then
    .next (s.raise opPktBuildSum .payloadTooLarge (rword := lengthWord (3 + p.length)))
  else
    let c := sum8 ([t] ++ p)
    .next (s.respond
      { rop := opPktBuildSum, rdata := [s.params.sumAddr, t] ++ p ++ [c], rbyte := c })

/-- PKT_PARSE_SUM (R133): length, then header, then checksum. -/
def execPktParseSum (r : Bytes) (s : State) : Host.Outcome State Fault Refusal :=
  let n := r.length
  if n < 3 then .next (s.raise opPktParseSum .invalidHeader)
  else if s.params.rxAddrOk (byteAt r 0) = false then
    .next (s.raise opPktParseSum .invalidHeader)
  else
    let span := slice r 1 (n - 2)
    let c := sum8 span
    if sumValid (byteAt r (n - 1)) span then
      .next (s.respond
        { rop := opPktParseSum, rbyte := byteAt r 1, rdata := slice r 2 (n - 2),
          rword := zext32 c })
    else
      .next (s.raise opPktParseSum .checksumMismatch (rword := zext32 c))

/-! ### CRC-framed variant (layout of R131) -/

/-- PKT_BUILD_CRC (R134). -/
def execPktBuildCrc (t : Byte) (p : Bytes) (s : State) : Host.Outcome State Fault Refusal :=
  if s.params.maxPktCrc < 7 + p.length then
    .next (s.raise opPktBuildCrc .payloadTooLarge (rword := lengthWord (7 + p.length)))
  else
    let c := crc32 ([t] ++ p)
    .next (s.respond
      { rop := opPktBuildCrc,
        rdata := s.params.crcMagic ++ crcField s.params.crcFieldOrder c ++ [t] ++ p,
        rword := c })

/-- PKT_PARSE_CRC (R135): length, then header, then checksum. -/
def execPktParseCrc (r : Bytes) (s : State) : Host.Outcome State Fault Refusal :=
  let n := r.length
  if n < 7 then .next (s.raise opPktParseCrc .invalidHeader)
  else if slice r 0 1 ≠ s.params.crcMagic then
    .next (s.raise opPktParseCrc .invalidHeader)
  else
    let c := crc32 (slice r 6 (n - 1))
    if crcVal s.params.crcFieldOrder (slice r 2 5) ≠ c then
      .next (s.raise opPktParseCrc .checksumMismatch (rword := c))
    else
      .next (s.respond
        { rop := opPktParseCrc, rbyte := byteAt r 6, rdata := slice r 7 (n - 1), rword := c })

end Sys2Proof.Machine
end

