-- ==== Sys2Proof/Machine/Dispatch.lean ====
section
/-! DEFINITION. One arm per operation, each a direct call of its meaning (spec/30_encoding.md R64). -/

namespace Sys2Proof.Machine

def exec (i : Instr) (s : State) : Host.Outcome State Fault Refusal :=
  match i with
  | .decByte b => Sys2Proof.Machine.execDecByte b s
  | .encFrame d => Sys2Proof.Machine.execEncFrame d s
  | .pktBuildSum t p => Sys2Proof.Machine.execPktBuildSum t p s
  | .pktParseSum r => Sys2Proof.Machine.execPktParseSum r s
  | .pktBuildCrc t p => Sys2Proof.Machine.execPktBuildCrc t p s
  | .pktParseCrc r => Sys2Proof.Machine.execPktParseCrc r s
  | .sumGen d => Sys2Proof.Machine.execSumGen d s
  | .sumCheck k d => Sys2Proof.Machine.execSumCheck k d s
  | .crcGen d => Sys2Proof.Machine.execCrcGen d s
  | .crcCheck x d => Sys2Proof.Machine.execCrcCheck x d s

end Sys2Proof.Machine
end

