-- ==== Sys2Proof/Machine/Step.lean ====
section
/-! DEFINITION. One step of the block: a reset, one operation, the refusal of one command, or a
wait for the host (spec/20_memory.md R49 and R51, spec/70_reset_and_hazards.md R230). -/

namespace Sys2Proof.Machine

/-- One step. An illegal elaboration has none (spec/00_scope.md R4). An asserted reset takes the
place of the next operation (R230). Otherwise the first command on the port is consumed and
performed, or refused with a response (spec/30_encoding.md R65, R66). While no whole command is
there the block waits, unchanged: DESIGN CHOICE, log 5, safe. -/
def step (s : State) : Host.Outcome State Fault Refusal :=
  if s.params.legal then
    if s.resetIn then .next s.takeReset
    else
      match s.fetch with
      | .instr i rest => exec i (s.setCmdIn rest)
      | .reservedOp op rest => .next ((s.setCmdIn rest).refuseCommand op)
      | .nonZeroField op rest => .next ((s.setCmdIn rest).refuseCommand op)
      | .incomplete => .next s
  else .refused .illegalElaboration

/-- `s` with the command of a table word (`tableWordBytes`) first on its command port and its reset
input released, so that the very next step runs it. It stands for the host issuing that command:
log 4 says how commands come to run from `State.reset`. -/
def State.withFetchWord (s : State) (nbits w : Nat) : State :=
  { s with cmdIn := tableWordBytes nbits w ++ s.cmdIn, resetIn := false }

end Sys2Proof.Machine
end

