-- ==== Sys2Proof/Machine/Assembler.lean ====
section
/-! DEFINITION. The assembler syntax and the pseudo-operation DEC_STREAM (spec/30_encoding.md rules
R71 and R72): from a line of text to the bytes of its commands. The syntax carries no semantics
(spec/92_eei_decisions.md D29); no step uses this file. -/

namespace Sys2Proof.Machine

/-! ### Lines -/

/-- A line: one operation, or the one pseudo-operation (R72). -/
inductive AsmLine where
  | op (i : Instr)
  | decStream (bs : Bytes)
  deriving DecidableEq, Repr

/-- The operations a line stands for: DEC_STREAM is one DEC_BYTE per byte, in order (R72). -/
def AsmLine.expand : AsmLine → List Instr
  | .op i => [i]
  | .decStream bs => bs.map .decByte

/-- The command bytes of a line. A data list of an operation longer than 65535 bytes is an assembly
error (R71). R72 does not say whether this limit holds for the list of a DEC_STREAM too: here it does
not, since each of its DEC_BYTE commands is well-formed (DESIGN CHOICE, log 19, unsafe for a claim
that a longer DEC_STREAM assembles). -/
def AsmLine.assemble (l : AsmLine) : Option Bytes :=
  if l.expand.all Instr.wf then some (l.expand.flatMap encode) else none

/-! ### Tokens -/

inductive AsmToken where
  | word (cs : List Char)
  | comma
  | openBrace
  | closeBrace
  deriving DecidableEq, Repr

/-- End the word gathered so far (its characters in reverse), if there is one. -/
def endWord (acc : List Char) (ts : List AsmToken) : List AsmToken :=
  match acc with
  | [] => ts
  | _ :: _ => .word acc.reverse :: ts

/-- Split a line into tokens. Blanks, which are the space character alone, separate words (DESIGN
CHOICE, log 13, safe); 123 and 125 are the codes of the braces. -/
def asmTokens : List Char → List Char → List AsmToken
  | [], acc => endWord acc []
  | c :: cs, acc =>
    if c = ' ' then endWord acc (asmTokens cs [])
    else if c = ',' then endWord acc (.comma :: asmTokens cs [])
    else if c.toNat = 123 then endWord acc (.openBrace :: asmTokens cs [])
    else if c.toNat = 125 then endWord acc (.closeBrace :: asmTokens cs [])
    else asmTokens cs (c :: acc)

/-! ### Literals -/

/-- The value of a hex digit, of either case (DESIGN CHOICE, log 13, safe). -/
def hexDigit (c : Char) : Option Nat :=
  if 48 ≤ c.toNat ∧ c.toNat ≤ 57 then some (c.toNat - 48)
  else if 65 ≤ c.toNat ∧ c.toNat ≤ 70 then some (c.toNat - 55)
  else if 97 ≤ c.toNat ∧ c.toNat ≤ 102 then some (c.toNat - 87)
  else none

/-- The value of a digit string in a base, most significant digit first, onto a value so far. -/
def digits (base : Nat) : List Char → Nat → Option Nat
  | [], n => some n
  | c :: cs, n =>
    match hexDigit c with
    | some d => if d < base then digits base cs (n * base + d) else none
    | none => none

/-- A literal of `width` bits: `0x` and hex digits that satisfy `hexLen`, or a decimal number. -/
def literal (width : Nat) (hexLen : Nat → Bool) : List Char → Option (BitVec width)
  | [] => none
  | c0 :: cs =>
    match cs with
    | 'x' :: ds =>
      if c0 = '0' ∧ hexLen ds.length = true then (digits 16 ds 0).map (BitVec.ofNat width) else none
    | _ =>
      match digits 10 (c0 :: cs) 0 with
      | some n => if n < 2 ^ width then some (BitVec.ofNat width n) else none
      | none => none

/-- `b` and `t`: `0x` and two hex digits, or decimal 0 to 255 (R71). A decimal number may have leading
zeros (DESIGN CHOICE, log 13, safe). -/
def byteLiteral (cs : List Char) : Option Byte := literal 8 (fun n => decide (n = 2)) cs

/-- `x`: a 32-bit literal (R71), with 1 to 8 hex digits. DESIGN CHOICE, log 13, safe. -/
def wordLiteral (cs : List Char) : Option Word :=
  literal 32 (fun n => decide (1 ≤ n) && decide (n ≤ 8)) cs

/-- An element of a data list: two hex digits (R71). -/
def hexPair (cs : List Char) : Option Byte :=
  if cs.length = 2 then (digits 16 cs 0).map (BitVec.ofNat 8) else none

/-- The elements of a data list, its closing brace, and the end of the line. -/
def dataList : List AsmToken → Option Bytes
  | [.closeBrace] => some []
  | .word cs :: ts =>
    match hexPair cs, dataList ts with
    | some b, some bs => some (b :: bs)
    | _, _ => none
  | _ => none

/-! ### Operations -/

/-- The operation a mnemonic names, with its format (R64). -/
def shapeOfMnemonic (m : List Char) : Option Shape :=
  if m = "DEC_BYTE".toList then shapeOf opDecByte
  else if m = "ENC_FRAME".toList then shapeOf opEncFrame
  else if m = "PKT_BUILD_SUM".toList then shapeOf opPktBuildSum
  else if m = "PKT_PARSE_SUM".toList then shapeOf opPktParseSum
  else if m = "PKT_BUILD_CRC".toList then shapeOf opPktBuildCrc
  else if m = "PKT_PARSE_CRC".toList then shapeOf opPktParseCrc
  else if m = "SUM_GEN".toList then shapeOf opSumGen
  else if m = "SUM_CHECK".toList then shapeOf opSumCheck
  else if m = "CRC_GEN".toList then shapeOf opCrcGen
  else if m = "CRC_CHECK".toList then shapeOf opCrcCheck
  else none

/-- The operands of each format, as R71's table writes them. -/
def parseOperands (sh : Shape) (ts : List AsmToken) : Option AsmLine :=
  match sh, ts with
  | .fb mk, [.word b] => (byteLiteral b).map fun b => .op (mk b)
  | .fs mk, .openBrace :: ds => (dataList ds).map fun d => .op (mk d)
  | .ft mk, .word t :: .comma :: .openBrace :: ds =>
    match byteLiteral t, dataList ds with
    | some t, some d => some (.op (mk t d))
    | _, _ => none
  | .fc mk, .word x :: .comma :: .openBrace :: ds =>
    match wordLiteral x, dataList ds with
    | some x, some d => some (.op (mk x d))
    | _, _ => none
  | _, _ => none

/-- A line of assembler text (R71, R72). -/
def parseLine (line : List Char) : Option AsmLine :=
  match asmTokens line [] with
  | .word m :: ts =>
    if m = "DEC_STREAM".toList then
      match ts with
      | .openBrace :: ds => (dataList ds).map .decStream
      | _ => none
    else
      match shapeOfMnemonic m with
      | some sh => parseOperands sh ts
      | none => none
  | _ => none

/-- The command bytes of a line of text. -/
def assembleText (line : List Char) : Option Bytes :=
  match parseLine line with
  | some l => l.assemble
  | none => none

end Sys2Proof.Machine
end

