-- ==== Sys2Proof/Safety.lean ====
section
/-! DEFINITION. What a safe run is, in the terms the statements use: the invariant between
operations (spec/10_state.md rules R21, R22, R24, R28, R29), the runs of the block under its host,
and the responses to a sequence of operations. -/

namespace Sys2Proof.Machine

/-- A response the block may give: an error carries no partial result (R29), `fvalid` marks a
DEC_BYTE that emitted a frame (R28), which is never empty (spec/40_frame_codec.md R112), and
`rdata` keeps its bound (R28). -/
structure Response.Wf (r : Response) : Prop where
  error_empty : r.status ≠ .ok → r.rdata = [] ∧ r.fvalid = false
  frame_emitted : r.fvalid = true → r.rop = opDecByte ∧ r.rdata ≠ []
  rdata_bound : r.rdata.length ≤ 131072

/-- What holds between operations. -/
structure State.Inv (s : State) : Prop where
  /-- The elaboration is one the block is defined for (spec/00_scope.md R4, R5, R11). -/
  legal : s.params.legal = true
  /-- R21: END_FRAME is never held. -/
  not_end : s.dstate ≠ .endFrame
  /-- R22: the buffer keeps its capacity. -/
  buf_bound : s.buf.length ≤ s.params.frameCap
  /-- R24: an awaiting decoder is empty. -/
  awaiting_empty : s.dstate = .awaitingFrame → s.buf = [] ∧ s.esc = false
  /-- R28, R29: the response is one the block may give. -/
  resp_wf : ∀ r, s.resp = some r → r.Wf

/-- The runs of a block under its host: steps of the block, bytes the host puts on the command
port, and reset asserted by the host (spec/00_scope.md R2, spec/70_reset_and_hazards.md R230). -/
inductive Run (s : State) : State → Prop where
  | start : Run s s
  | step {t u : State} : Run s t → step t = .next u → Run s u
  | issue {t : State} (bs : Bytes) : Run s t → Run s { t with cmdIn := t.cmdIn ++ bs }
  | assertReset {t : State} : Run s t → Run s { t with resetIn := true }

/-- Issue operations one after another: the state after the last and every response in order
(spec/20_memory.md R51). `none` when one of them does not complete with a response. -/
def issueAll : List Instr → State → Option (State × List Response)
  | [], s => some (s, [])
  | i :: is, s =>
    match exec i s with
    | .next t =>
      match t.resp, issueAll is t with
      | some r, some (u, rs) => some (u, r :: rs)
      | _, _ => none
    | .fault _ => none
    | .refused _ => none

/-- Feed a byte stream to the decoder, one DEC_BYTE per byte. -/
def feedAll (bs : Bytes) (s : State) : Option (State × List Response) :=
  issueAll (bs.map .decByte) s

/-- The decoded frames among responses, in order. -/
def framesOf (rs : List Response) : List Bytes :=
  rs.filterMap fun r => if r.fvalid then some r.rdata else none

end Sys2Proof.Machine
end

