-- ==== Sys2Proof/Certificates/Slice0/Obligations.lean ====
section
/-! DEFINITION. The statements for the provers, each from the numbered rules of spec/. A response is
written with all its six fields: ⟨rop, status, fvalid, rbyte, rword, rdata⟩. A statement over every
state holds for every parameter set, since a state carries its own. -/

open Sys2Proof Sys2Proof.Machine

/-! ### Words of the statements -/

namespace Sys2Proof.Machine

/-- The response of a DEC_BYTE that emits nothing. -/
def quiet : Response := ⟨0x01, .ok, false, 0x00, 0x00000000, []⟩

/-- The response of a DEC_BYTE that emits the frame `f`. -/
def emitted (f : Bytes) : Response := ⟨0x01, .ok, true, 0x00, 0x00000000, f⟩

/-- The response of a DEC_BYTE that overflows with the decoded byte `v`. -/
def overflowed (v : Byte) : Response := ⟨0x01, .bufferOverflow, false, v, 0x00000000, []⟩

/-- The refusal of a command with operation field `op`. -/
def unsupported (op : Byte) : Response := ⟨op, .unsupportedOperation, false, 0x00, 0x00000000, []⟩

/-- The `op` values spec/30_encoding.md rule R65 lists as reserved. -/
def ReservedOp (op : Byte) : Prop :=
  op = 0x00 ∨ (0x02 ≤ op ∧ op ≤ 0x0F) ∨ (0x11 ≤ op ∧ op ≤ 0x1F) ∨ (0x24 ≤ op ∧ op ≤ 0x2F) ∨
    (0x34 ≤ op ∧ op ≤ 0xFF)

/-- The bytes left on the port after a command, once it is whole. -/
def remaining : Decoded → Option Bytes
  | .instr _ rest => some rest
  | .reservedOp _ rest => some rest
  | .nonZeroField _ rest => some rest
  | .incomplete => none

/-- The status codes spec/60_exceptions.md rules R200 and R208 give each operation. -/
def raisable : Instr → List Status
  | .decByte _ => [.ok, .bufferOverflow]
  | .encFrame _ => [.ok]
  | .pktBuildSum _ _ => [.ok, .payloadTooLarge]
  | .pktParseSum _ => [.ok, .invalidHeader, .checksumMismatch]
  | .pktBuildCrc _ _ => [.ok, .payloadTooLarge]
  | .pktParseCrc _ => [.ok, .invalidHeader, .checksumMismatch]
  | .sumGen _ => [.ok]
  | .sumCheck _ _ => [.ok, .checksumMismatch]
  | .crcGen _ => [.ok]
  | .crcCheck _ _ => [.ok, .checksumMismatch]

/-- An operation that is not DEC_BYTE. -/
def NotDecByte (i : Instr) : Prop := ∀ b, i ≠ .decByte b

/-- `sum(s)` of spec/00_scope.md section 5, written apart from the model. -/
def naturalSum (s : Bytes) : Nat := (s.map BitVec.toNat).sum

/-- Every other frame, and only those that a later frame follows (spec/40_frame_codec.md R115). -/
def everyOther : List Bytes → List Bytes
  | a :: _ :: rest => a :: everyOther rest
  | [_] => []
  | [] => []

/-- `r` with bit `j` of byte `i` flipped. -/
def flipBit (r : Bytes) (i j : Nat) : Bytes := r.modify i fun b => b ^^^ BitVec.ofNat 8 (2 ^ j)

/-- One bit into a bit-serial CRC register with polynomial 0x04C11DB7. -/
def serialBit (reg : Word) (bit : Bool) : Word :=
  if reg.msb ^^ bit then (reg <<< 1) ^^^ 0x04C11DB7 else reg <<< 1

/-- One byte into it, least significant bit first. -/
def serialByte (reg : Word) (b : Byte) : Word :=
  (List.range 8).foldl (fun r k => serialBit r (b.getLsbD k)) reg

/-- The bit-serial reflected CRC-32 with polynomial 0x04C11DB7 (spec/42_checksums.md R165). -/
def serialCrc (s : Bytes) : Word := ~~~ ((s.foldl serialByte 0xFFFFFFFF).reverse)

end Sys2Proof.Machine

/-! ### Command encoding (spec/30_encoding.md) -/

/-- Decode and encode agree: every operand of every operation survives (R60 to R64). -/
def Obligations.DecodeInvertsEncode : Prop :=
  ∀ (i : Instr) (rest : Bytes), i.wf = true → decode (encode i ++ rest) = .instr i rest

/-- Each accepted command is the one spelling of its operation (R60 to R64). -/
def Obligations.EncodeInvertsDecode : Prop :=
  ∀ (bs : Bytes) (i : Instr) (rest : Bytes),
    decode bs = .instr i rest → i.wf = true ∧ bs = encode i ++ rest

/-- R64's match and mask table: at most one row matches any word, and the decoder accepts, under
the row's mnemonic, exactly the words a row matches, once the command is whole. -/
def Obligations.OpcodeRowsDisjointAndDecoded : Prop :=
  (∀ w : Word, (opcodeRows.filter fun r => r.accepts w).length ≤ 1) ∧
  (∀ (w : Word) (bs : Bytes) (i : Instr) (rest : Bytes),
    decode (wordBytes w ++ bs) = .instr i rest →
      ∃ r ∈ opcodeRows, r.accepts w = true ∧ r.mnemonic = i.mnemonic) ∧
  (∀ (w : Word) (bs : Bytes), (∃ r ∈ opcodeRows, r.accepts w = true) →
    commandLength w ≤ 4 + bs.length → ∃ i rest, decode (wordBytes w ++ bs) = .instr i rest)

/-- The example words of R71 and two refusals of spec/95_test_vectors.md section 2.5, as their
bytes on the port. -/
def Obligations.SampleWordsDecode : Prop :=
  decode [0x01, 0x7E, 0x00, 0x00] = .instr (.decByte 0x7E) [] ∧
  decode [0x10, 0x00, 0x02, 0x00, 0x01, 0x7E] = .instr (.encFrame [0x01, 0x7E]) [] ∧
  decode [0x20, 0x10, 0x01, 0x00, 0x05] = .instr (.pktBuildSum 0x10 [0x05]) [] ∧
  decode [0x33, 0x00, 0x01, 0x00, 0x26, 0x39, 0xF4, 0xCB, 0x31] =
    .instr (.crcCheck 0xCBF43926 [0x31]) [] ∧
  decode [0x34, 0x00, 0x00, 0x00] = .reservedOp 0x34 [] ∧
  decode [0x01, 0x7E, 0x01, 0x00] = .nonZeroField 0x01 []

/-- R65: a reserved `op` is refused with UnsupportedOperation, no register is written, and the
header and its `len` data bytes are consumed. -/
def Obligations.ReservedOpRefused : Prop :=
  (∀ op : Byte, ReservedOp op ↔
    op ∉ ([0x01, 0x10, 0x20, 0x21, 0x22, 0x23, 0x30, 0x31, 0x32, 0x33] : List Byte)) ∧
  (∀ (s : State) (w : Word) (d rest : Bytes), s.params.legal = true → s.resetIn = false →
    ReservedOp (w.extractLsb' 0 8) → d.length = (w.extractLsb' 16 16).toNat →
    s.cmdIn = wordBytes w ++ d ++ rest →
      step s = .next { s with cmdIn := rest, resp := some (unsupported (w.extractLsb' 0 8)) })

/-- R66: a defined `op` whose must-be-zero field is not zero is refused; format FB consumes the
header only, FS the data bytes too, FC also `X`. -/
def Obligations.NonZeroFieldRefused : Prop :=
  ∀ (s : State) (w : Word), s.params.legal = true → s.resetIn = false →
    (w.extractLsb' 0 8 = (0x01 : Byte) → w.extractLsb' 16 16 ≠ (0 : BitVec 16) →
      ∀ rest, s.cmdIn = wordBytes w ++ rest →
        step s = .next { s with cmdIn := rest, resp := some (unsupported 0x01) }) ∧
    (w.extractLsb' 0 8 ∈ ([0x10, 0x21, 0x23, 0x30, 0x32] : List Byte) →
      w.extractLsb' 8 8 ≠ (0 : Byte) →
      ∀ d rest, d.length = (w.extractLsb' 16 16).toNat → s.cmdIn = wordBytes w ++ d ++ rest →
        step s = .next { s with cmdIn := rest, resp := some (unsupported (w.extractLsb' 0 8)) }) ∧
    (w.extractLsb' 0 8 = (0x33 : Byte) → w.extractLsb' 8 8 ≠ (0 : Byte) →
      ∀ x d rest, d.length = (w.extractLsb' 16 16).toNat →
        s.cmdIn = wordBytes w ++ wordBytes x ++ d ++ rest →
        step s = .next { s with cmdIn := rest, resp := some (unsupported 0x33) })

/-- R68 (which the spec marks as derived): a command's length follows from its header word alone,
and the decoder consumes exactly that many bytes, whatever it makes of them; a command is not whole
until they are there. -/
def Obligations.CommandLengthFromHeader : Prop :=
  (∀ (w : Word) (bs : Bytes),
    let total :=
      if w.extractLsb' 0 8 = (0x01 : Byte) then 4
      else if w.extractLsb' 0 8 = (0x33 : Byte) then 8 + (w.extractLsb' 16 16).toNat
      else 4 + (w.extractLsb' 16 16).toNat
    (4 + bs.length < total ∧ decode (wordBytes w ++ bs) = .incomplete) ∨
    ∃ used rest, wordBytes w ++ bs = used ++ rest ∧ used.length = total ∧
      remaining (decode (wordBytes w ++ bs)) = some rest) ∧
  (∀ bs : Bytes, bs.length < 4 → decode bs = .incomplete)

/-- A step runs the decoded operation, on the state whose command has been consumed. -/
def Obligations.StepRunsDecodedOperation : Prop :=
  ∀ (s : State) (i : Instr) (rest : Bytes), s.params.legal = true → s.resetIn = false →
    decode s.cmdIn = .instr i rest → step s = exec i { s with cmdIn := rest }

/-- While no whole command is on the port the block waits unchanged. The model's own choice,
log 5. -/
def Obligations.StepWaitsForWholeCommand : Prop :=
  ∀ s : State, s.params.legal = true → s.resetIn = false → decode s.cmdIn = .incomplete →
    step s = .next s

/-- spec/20_memory.md R51: commands on the port are performed one at a time in the host's order,
each on the state the one before it left. -/
def Obligations.CommandsRunInOrder : Prop :=
  ∀ (is : List Instr) (s t : State) (rs : List Response) (rest : Bytes),
    s.params.legal = true → s.resetIn = false → (∀ i ∈ is, i.wf = true) →
    s.cmdIn = is.flatMap encode ++ rest →
    issueAll is { s with cmdIn := rest } = some (t, rs) →
      Sys2Proof.core.run is.length s = .next t

/-- R72: DEC_STREAM stands for one DEC_BYTE per byte, in order, with one response each;
`DEC_STREAM {}` is nothing; a line is an operation or a DEC_STREAM. Its command bytes are stated for
the lists that are within R71's limit whichever lists that limit covers; `DataListLengthLimit` states
the longer ones. -/
def Obligations.DecStreamIsOneDecBytePerByte : Prop :=
  (∀ bs : Bytes, (AsmLine.decStream bs).expand = bs.map .decByte) ∧
  (∀ bs : Bytes, bs.length ≤ 65535 → (AsmLine.decStream bs).assemble =
    some (bs.flatMap fun b => [0x01, b, 0x00, 0x00])) ∧
  (AsmLine.decStream []).assemble = some [] ∧
  (∀ l : AsmLine, (∃ i, l = .op i) ∨ ∃ bs, l = .decStream bs) ∧
  (∀ (bs : Bytes) (s : State), ∃ t rs,
    issueAll (AsmLine.decStream bs).expand s = some (t, rs) ∧ rs.length = bs.length)

/-- Which data lists are too long to assemble: an operation's beyond 65535 bytes (R71), and no
DEC_STREAM's. That the limit does not cover DEC_STREAM is the model's own choice, log 19. -/
def Obligations.DataListLengthLimit : Prop :=
  (∀ i : Instr, (AsmLine.op i).assemble =
    if i.data.length ≤ 65535 then some (encode i) else none) ∧
  (∀ bs : Bytes, 65535 < bs.length → (AsmLine.decStream bs).assemble =
    some (bs.flatMap fun b => [0x01, b, 0x00, 0x00]))

/-! ### State and reset (spec/10_state.md, spec/70_reset_and_hazards.md) -/

/-- R31 and R231: reset, in place of the next operation, gives the decoder registers their reset
values, discards a partial frame without a diagnostic, and leaves no response pending. -/
def Obligations.ResetClearsDecoder : Prop :=
  (∀ s : State, s.params.legal = true → s.resetIn = true →
    ∃ t, step s = .next t ∧ t.dstate = .awaitingFrame ∧ t.buf = [] ∧ t.esc = false ∧
      t.resp = none ∧ t.params = s.params) ∧
  State.reset.dstate = .awaitingFrame ∧ State.reset.buf = [] ∧ State.reset.esc = false ∧
    State.reset.resp = none

/-- The state after reset meets the invariant, for every legal parameter set. -/
def Obligations.ResetMeetsInvariant : Prop :=
  (∀ p : Params, p.legal = true → (State.resetWith p).Inv) ∧ State.reset.Inv

/-- Every step keeps the invariant: R21 (END_FRAME is not held), R22 (the buffer bound), R24 (an
awaiting decoder is empty), R28 and R29 (the shape of a response). -/
def Obligations.StepKeepsInvariant : Prop :=
  ∀ s t : State, s.Inv → step s = .next t → t.Inv

/-- R24 (which the spec marks as derived): reset establishes "AWAITING_FRAME implies an empty buffer
and `esc = 0`", and every operation, DEC_BYTE among them, and every step keeps it. -/
def Obligations.AwaitingDecoderIsEmpty : Prop :=
  let emptyWhenAwaiting := fun s : State => s.dstate = .awaitingFrame → s.buf = [] ∧ s.esc = false
  (∀ p, emptyWhenAwaiting (State.resetWith p)) ∧
  (∀ s t : State, s.resetIn = true → step s = .next t → emptyWhenAwaiting t) ∧
  (∀ (i : Instr) (s t : State), emptyWhenAwaiting s → exec i s = .next t → emptyWhenAwaiting t) ∧
  (∀ s t : State, emptyWhenAwaiting s → step s = .next t → emptyWhenAwaiting t)

/-- Safe runs: whatever a host issues and whenever it resets, a legal instance keeps the invariant
and always has a next step. -/
def Obligations.RunsNeverStop : Prop :=
  ∀ (p : Params) (s : State), p.legal = true → Run (State.resetWith p) s →
    s.Inv ∧ ∃ t, step s = .next t

/-- R27: every operation but DEC_BYTE is a function of its operands and the parameters alone, and
keeps no state: it writes the response and nothing else. -/
def Obligations.PureOperationsIgnoreState : Prop :=
  ∀ i : Instr, NotDecByte i → ∀ p : Params, ∃ r : Response, ∀ s : State, s.params = p →
    exec i s = .next { s with resp := some r }

/-- spec/20_memory.md R50 (which the spec marks as derived): DEC_BYTE alone has a side effect; every
other operation, issued twice, responds the same twice and changes no state; DEC_BYTE is not
idempotent. -/
def Obligations.OnlyDecByteIsNotIdempotent : Prop :=
  (∀ i : Instr, NotDecByte i → ∀ s : State, ∃ t, exec i s = .next t ∧ exec i t = .next t ∧
    t.dstate = s.dstate ∧ t.buf = s.buf ∧ t.esc = s.esc) ∧
  (∃ b s t u, exec (.decByte b) s = .next t ∧ exec (.decByte b) t = .next u ∧
    s.buf ≠ t.buf ∧ t.buf ≠ u.buf)

/-- Every operation completes with a response that echoes its `op`; an error carries no data and
no frame (R28, R29), and `fvalid` is 1 only for a DEC_BYTE that emits. -/
def Obligations.EveryOperationResponds : Prop :=
  ∀ (i : Instr) (s : State), ∃ t r, exec i s = .next t ∧ t.resp = some r ∧ r.rop = i.op ∧
    (r.status ≠ .ok → r.rdata = [] ∧ r.fvalid = false) ∧
    (r.fvalid = true → ∃ b, i = .decByte b ∧ r.rdata = s.buf)

/-! ### Errors (spec/60_exceptions.md) -/

/-- R209: an operation that does not return OK has written no register, but for the decoder reset
of BufferOverflow, and a refused command has written none; nothing is saved. -/
def Obligations.ErrorsArePrecise : Prop :=
  (∀ (i : Instr) (s t : State) (r : Response), exec i s = .next t → t.resp = some r →
    r.status ≠ .ok →
    if r.status = .bufferOverflow then
      (∃ b, i = .decByte b) ∧
        t = { s with dstate := .awaitingFrame, buf := [], esc := false, resp := some r }
    else t = { s with resp := some r }) ∧
  (∀ (s : State) (op : Byte) (rest : Bytes), s.params.legal = true → s.resetIn = false →
    decode s.cmdIn = .reservedOp op rest ∨ decode s.cmdIn = .nonZeroField op rest →
      step s = .next { s with cmdIn := rest, resp := some (unsupported op) })

/-- R200 and item 3 of R208: the status codes each operation can return, and their numbers. -/
def Obligations.StatusesEachOperationReturns : Prop :=
  (∀ (i : Instr) (s : State), ∃ t r, exec i s = .next t ∧ t.resp = some r ∧
    r.status ∈ raisable i) ∧
  Status.ok.code = 0x00 ∧ Status.checksumMismatch.code = 0x01 ∧
  Status.invalidHeader.code = 0x02 ∧ Status.bufferOverflow.code = 0x03 ∧
  Status.unsupportedOperation.code = 0x04 ∧ Status.payloadTooLarge.code = 0x05

/-- R203: exactly when the parsers raise InvalidHeader. -/
def Obligations.InvalidHeaderExactlyWhen : Prop :=
  (∀ (s : State) (r : Bytes), ∃ t q, exec (.pktParseSum r) s = .next t ∧ t.resp = some q ∧
    (q.status = .invalidHeader ↔ r.length < 3 ∨ ∃ a rest, r = a :: rest ∧
      s.params.rxAddrOk a = false)) ∧
  (∀ (s : State) (r : Bytes), ∃ t q, exec (.pktParseCrc r) s = .next t ∧ t.resp = some q ∧
    (q.status = .invalidHeader ↔ r.length < 7 ∨
      r.take 2 ≠ [s.params.crcMagic0, s.params.crcMagic1]))

/-- R207: exactly when the builders raise PayloadTooLarge. -/
def Obligations.PayloadTooLargeExactlyWhen : Prop :=
  (∀ (s : State) (ty : Byte) (p : Bytes), ∃ t q, exec (.pktBuildSum ty p) s = .next t ∧
    t.resp = some q ∧ (q.status = .payloadTooLarge ↔ 3 + p.length > s.params.maxPktSum)) ∧
  (∀ (s : State) (ty : Byte) (p : Bytes), ∃ t q, exec (.pktBuildCrc ty p) s = .next t ∧
    t.resp = some q ∧ (q.status = .payloadTooLarge ↔ 7 + p.length > s.params.maxPktCrc))

/-- R210: whatever the state of a legal instance, the block takes its next step, and the elaboration
stays what it is: no error stops or hangs it. -/
def Obligations.LegalInstanceAlwaysSteps : Prop :=
  ∀ s : State, s.params.legal = true → ∃ t, step s = .next t ∧ t.params = s.params

/-- spec/00_scope.md R4 (which the spec marks as derived; the refusal stands at the step, log 3): an
elaboration that breaks a constraint is refused; the constraints keep
`DELIM ^ MASK` and `ESC ^ MASK` apart from `DELIM` and `ESC`. -/
def Obligations.IllegalElaborationRefused : Prop :=
  (∀ s : State, s.params.delim = s.params.esc ∨ s.params.mask = 0x00 ∨
    s.params.mask = s.params.delim ^^^ s.params.esc → step s = .refused .illegalElaboration) ∧
  (∀ p : Params, p.legal = true →
    p.delim ^^^ p.mask ≠ p.delim ∧ p.delim ^^^ p.mask ≠ p.esc ∧
    p.esc ^^^ p.mask ≠ p.delim ∧ p.esc ^^^ p.mask ≠ p.esc)

/-! ### Encode (spec/40_frame_codec.md) -/

/-- R100 and R101: stuffing escapes DELIM and ESC and no other byte, and framing adds the leading
delimiter, and the trailing one under BOTH. -/
def Obligations.FrameStuffsAndDelimits : Prop :=
  ∀ (p : Params) (d : Bytes),
    stuff p d =
      (d.map fun b => if b = p.delim ∨ b = p.esc then [p.esc, b ^^^ p.mask] else [b]).flatten ∧
    frame p d = [p.delim] ++ stuff p d ++ (if p.framing = .both then [p.delim] else [])

/-- ENC_FRAME (R102): its result, its response fields, and its frame. -/
def Obligations.EncFrameResult : Prop :=
  ∀ (s : State) (d : Bytes), exec (.encFrame d) s =
    .next { s with resp := some ⟨0x10, .ok, false, 0x00, 0x00000000, frame s.params d⟩ }

/-- The length of ENC_FRAME's output (R102's corner cases), and its bound. -/
def Obligations.EncFrameLength : Prop :=
  ∀ (p : Params) (d : Bytes),
    (frame p d).length =
      d.length + (d.filter fun b => decide (b = p.delim ∨ b = p.esc)).length +
        (if p.framing = .both then 2 else 1) ∧
    (d.length ≤ 65535 → (frame p d).length ≤ 131072)

/-- R103 (which the spec marks as derived): where DELIM and ESC stand in an encoded frame. -/
def Obligations.DelimiterOnlyAtBoundaries : Prop :=
  ∀ (p : Params) (d : Bytes), p.legal = true →
    (p.framing = .both →
      (∀ k, (frame p d)[k]? = some p.delim ↔ k = 0 ∨ k + 1 = (frame p d).length) ∧
      (∀ k, (frame p d)[k]? = some p.esc →
        (frame p d)[k + 1]? = some (p.delim ^^^ p.mask) ∨
        (frame p d)[k + 1]? = some (p.esc ^^^ p.mask))) ∧
    (p.framing = .leadingOnly → ∀ k, (frame p d)[k]? = some p.delim ↔ k = 0)

/-! ### Decode (spec/40_frame_codec.md) -/

/-- R104: a delimiter closes the frame when the buffer holds data. -/
def Obligations.DelimiterClosesFrame : Prop :=
  ∀ s : State, 0 < s.buf.length → exec (.decByte s.params.delim) s =
    .next { s with dstate := .awaitingFrame, buf := [], esc := false,
                   resp := some (emitted s.buf) }

/-- R105: a delimiter opens a frame when the buffer is empty. -/
def Obligations.DelimiterOpensFrame : Prop :=
  ∀ s : State, s.buf = [] → exec (.decByte s.params.delim) s =
    .next { s with dstate := .inFrame, esc := false, resp := some quiet }

/-- R106: in AWAITING_FRAME every byte but the delimiter, ESC included, is dropped. -/
def Obligations.AwaitingDropsBytes : Prop :=
  ∀ (s : State) (b : Byte), s.dstate = .awaitingFrame → b ≠ s.params.delim →
    exec (.decByte b) s = .next { s with resp := some quiet }

/-- R107: in IN_FRAME, ESC sets the unmask flag and is dropped; `ESC ESC x` appends `x ^ MASK`
once. -/
def Obligations.EscapeSetsUnmaskFlag : Prop :=
  (∀ s : State, s.dstate = .inFrame → s.params.esc ≠ s.params.delim →
    exec (.decByte s.params.esc) s = .next { s with esc := true, resp := some quiet }) ∧
  (∀ (s : State) (x : Byte), s.dstate = .inFrame → s.params.esc ≠ s.params.delim →
    x ≠ s.params.delim → x ≠ s.params.esc → s.buf.length < s.params.frameCap →
    feedAll [s.params.esc, s.params.esc, x] s =
      some ({ s with buf := s.buf ++ [x ^^^ s.params.mask], esc := false, resp := some quiet },
        [quiet, quiet, quiet]))

/-- R108: in IN_FRAME, any other byte is unmasked if the flag is set, the flag is cleared, and the
value is appended, subject to R109. -/
def Obligations.DataByteUnmaskedAndAppended : Prop :=
  ∀ (s : State) (b : Byte), s.dstate = .inFrame → b ≠ s.params.delim → b ≠ s.params.esc →
    s.buf.length ≠ s.params.frameCap → exec (.decByte b) s =
      .next { s with buf := s.buf ++ [if s.esc then b ^^^ s.params.mask else b], esc := false,
                     resp := some quiet }

/-- R109: the byte that would exceed FRAME_CAP resets the decoder and raises BufferOverflow with
that byte decoded; a frame of exactly FRAME_CAP bytes is accepted; escapes are not counted. -/
def Obligations.OverflowResetsDecoder : Prop :=
  (∀ (s : State) (b : Byte), s.dstate = .inFrame → b ≠ s.params.delim → b ≠ s.params.esc →
    s.buf.length = s.params.frameCap → exec (.decByte b) s =
      .next { s with dstate := .awaitingFrame, buf := [], esc := false,
                     resp := some (overflowed (if s.esc then b ^^^ s.params.mask else b)) }) ∧
  (∀ (s : State) (b : Byte), s.dstate = .inFrame → b ≠ s.params.delim → b ≠ s.params.esc →
    s.buf.length + 1 = s.params.frameCap → ∃ t f, f.length = s.params.frameCap ∧
      feedAll [b, s.params.delim] s = some (t, [quiet, emitted f])) ∧
  (∀ s : State, s.dstate = .inFrame → s.params.esc ≠ s.params.delim →
    s.buf.length = s.params.frameCap → exec (.decByte s.params.esc) s =
      .next { s with esc := true, resp := some quiet })

/-- R110: one DEC_BYTE has exactly one of three outcomes, and never emits a frame and overflows. -/
def Obligations.DecByteOneOfThreeOutcomes : Prop :=
  ∀ (s : State) (b : Byte), ∃ t, exec (.decByte b) s = .next t ∧
    (t.resp = some quiet ∨ (t.resp = some (emitted s.buf) ∧ s.buf ≠ []) ∨
      ∃ v, t.resp = some (overflowed v) ∧ s.buf.length = s.params.frameCap ∧
        s.dstate ≠ .awaitingFrame ∧ b ≠ s.params.delim ∧ b ≠ s.params.esc) ∧
    t.params = s.params ∧ t.cmdIn = s.cmdIn ∧ t.resetIn = s.resetIn

/-- R111: an escape immediately followed by a delimiter does not abort: the delimiter acts as it
would have, and the pending unmask is dropped. -/
def Obligations.EscapeThenDelimiterDoesNotAbort : Prop :=
  (∀ s : State, s.dstate = .inFrame → s.params.esc ≠ s.params.delim →
    ∃ s1, exec (.decByte s.params.esc) s = .next s1 ∧ s1.esc = true ∧
      exec (.decByte s.params.delim) s1 = exec (.decByte s.params.delim) s) ∧
  (∀ (p : Params) (x : Byte), p.legal = true → x ≠ p.delim → x ≠ p.esc →
    ∃ t, feedAll [p.delim, x, p.esc, p.delim] (State.resetWith p) =
      some (t, [quiet, quiet, quiet, emitted [x]]) ∧ t.esc = false)

/-- R112: no empty frame is ever emitted, not for two delimiters in a row, nor for an interior made
only of escapes. -/
def Obligations.EmptyFrameNeverEmitted : Prop :=
  (∀ (s : State) (b : Byte), ∃ t r, exec (.decByte b) s = .next t ∧ t.resp = some r ∧
    (r.fvalid = true → r.rdata ≠ [])) ∧
  (∀ s : State, s.buf = [] →
    feedAll [s.params.delim, s.params.delim] s =
      some ({ s with dstate := .inFrame, esc := false, resp := some quiet }, [quiet, quiet])) ∧
  (∀ s : State, s.buf = [] → s.params.esc ≠ s.params.delim →
    feedAll [s.params.delim, s.params.esc, s.params.delim] s =
      some ({ s with dstate := .inFrame, esc := false, resp := some quiet },
        [quiet, quiet, quiet]))

/-- R113 (which the spec marks as derived), the round trip under BOTH: a frame of 1 to FRAME_CAP
bytes is emitted once, at its last byte; an empty one emits nothing; a longer one overflows at the
byte that carries `D[FRAME_CAP]`, emits nothing, and its trailing delimiter opens a frame. -/
def Obligations.DecodeInvertsEncFrame : Prop :=
  ∀ (s : State) (d : Bytes), s.params.legal = true → s.params.framing = .both → s.buf = [] →
    (1 ≤ d.length → d.length ≤ s.params.frameCap →
      feedAll (frame s.params d) s =
        some ({ s with dstate := .awaitingFrame, esc := false, resp := some (emitted d) },
          List.replicate ((frame s.params d).length - 1) quiet ++ [emitted d])) ∧
    (d = [] →
      feedAll (frame s.params d) s =
        some ({ s with dstate := .inFrame, esc := false, resp := some quiet }, [quiet, quiet])) ∧
    (∀ d1 v d2, d = d1 ++ v :: d2 → d1.length = s.params.frameCap →
      feedAll (frame s.params d) s =
        some ({ s with dstate := .inFrame, esc := false, resp := some quiet },
          List.replicate ((stuff s.params (d1 ++ [v])).length) quiet ++ [overflowed v] ++
            List.replicate ((stuff s.params d2).length + 1) quiet))

/-- R114 (which the spec marks as derived): Encode is injective, and Decode is not: an escape before
an ordinary byte, repeated escapes, garbage and extra delimiters give the frame that a canonical
`frame(D)` gives. -/
def Obligations.EncodeInjectiveDecodeNot : Prop :=
  (∀ (p : Params) (d e : Bytes), p.legal = true → frame p d = frame p e → d = e) ∧
  (∀ (s : State) (x : Byte) (g : Bytes), s.params.legal = true → s.params.framing = .both →
    s.dstate = .awaitingFrame → s.buf = [] → x ≠ s.params.delim → x ≠ s.params.esc →
    (∀ b ∈ g, b ≠ s.params.delim) →
    ∀ stream ∈
      [frame s.params [x ^^^ s.params.mask],
       [s.params.delim, s.params.esc, x, s.params.delim],
       [s.params.delim, s.params.esc, s.params.esc, x, s.params.delim],
       g ++ frame s.params [x ^^^ s.params.mask],
       s.params.delim :: frame s.params [x ^^^ s.params.mask]],
      ∃ t rs, feedAll stream s = some (t, rs) ∧ framesOf rs = [[x ^^^ s.params.mask]])

/-- R115 (which the spec marks as derived): of frames with a leading delimiter only, every other one
is emitted, and the last only when a later delimiter arrives. -/
def Obligations.LeadingOnlyLosesEveryOtherFrame : Prop :=
  ∀ (s : State) (ds : List Bytes), s.params.legal = true → s.params.framing = .leadingOnly →
    s.buf = [] → (∀ d ∈ ds, 1 ≤ d.length ∧ d.length ≤ s.params.frameCap) →
    (∃ t rs, feedAll (ds.flatMap (frame s.params)) s = some (t, rs) ∧
      framesOf rs = everyOther ds) ∧
    (∀ d ∈ ds, ∃ t rs u qs, feedAll (frame s.params d) s = some (t, rs) ∧ framesOf rs = [] ∧
      feedAll [s.params.delim] t = some (u, qs) ∧ framesOf qs = [d])

/-- R116 (which the spec marks as derived), resynchronisation under BOTH: after the rest of a frame
it started inside, an awaiting decoder emits every later frame; a decoder holding bytes of something
else emits those, loses the frame whose leading delimiter closed them, and emits every later one. -/
def Obligations.DecoderResynchronises : Prop :=
  (∀ (s : State) (g : Bytes) (ds : List Bytes), s.params.legal = true →
    s.params.framing = .both → s.dstate = .awaitingFrame → s.buf = [] →
    (∀ b ∈ g, b ≠ s.params.delim) →
    (∀ d ∈ ds, 1 ≤ d.length ∧ d.length ≤ s.params.frameCap) →
    ∃ t rs, feedAll (g ++ [s.params.delim] ++ ds.flatMap (frame s.params)) s = some (t, rs) ∧
      framesOf rs = ds) ∧
  (∀ (s : State) (d : Bytes) (ds : List Bytes), s.params.legal = true →
    s.params.framing = .both → s.buf ≠ [] →
    (∀ e ∈ ds, 1 ≤ e.length ∧ e.length ≤ s.params.frameCap) →
    ∃ t rs, feedAll (frame s.params d ++ ds.flatMap (frame s.params)) s = some (t, rs) ∧
      framesOf rs = s.buf :: ds)

/-! ### Packets (spec/41_packet.md) -/

/-- PKT_BUILD_SUM (R132, layout of R130). -/
def Obligations.PktBuildSumResult : Prop :=
  ∀ (s : State) (t : Byte) (p : Bytes),
    (3 + p.length ≤ s.params.maxPktSum → exec (.pktBuildSum t p) s =
      .next { s with resp := some ⟨0x20, .ok, false, sum8 (t :: p), 0x00000000,
        [s.params.sumAddr, t] ++ p ++ [sum8 (t :: p)]⟩ }) ∧
    (s.params.maxPktSum < 3 + p.length → exec (.pktBuildSum t p) s =
      .next { s with resp := some ⟨0x20, .payloadTooLarge, false, 0x00,
        BitVec.ofNat 32 (3 + p.length), []⟩ })

/-- PKT_PARSE_SUM (R133): a short packet, then a bad header, then the checksum test of R161 on the
fields of R130's layout. -/
def Obligations.PktParseSumResult : Prop :=
  (∀ (s : State) (r : Bytes), r.length < 3 → exec (.pktParseSum r) s =
    .next { s with resp := some ⟨0x21, .invalidHeader, false, 0x00, 0x00000000, []⟩ }) ∧
  (∀ (s : State) (a t k : Byte) (p : Bytes), exec (.pktParseSum ([a, t] ++ p ++ [k])) s =
    .next { s with resp := some (
      if s.params.rxAddrOk a = false then ⟨0x21, .invalidHeader, false, 0x00, 0x00000000, []⟩
      else if (k.toNat + naturalSum (t :: p)) % 256 = 0 then
        ⟨0x21, .ok, false, t, (sum8 (t :: p)).setWidth 32, p⟩
      else ⟨0x21, .checksumMismatch, false, 0x00, (sum8 (t :: p)).setWidth 32, []⟩) })

/-- PKT_BUILD_CRC (R134, layout of R131). -/
def Obligations.PktBuildCrcResult : Prop :=
  ∀ (s : State) (t : Byte) (p : Bytes),
    (7 + p.length ≤ s.params.maxPktCrc → exec (.pktBuildCrc t p) s =
      .next { s with resp := some ⟨0x22, .ok, false, 0x00, crc32 (t :: p),
        [s.params.crcMagic0, s.params.crcMagic1] ++
          crcField s.params.crcFieldOrder (crc32 (t :: p)) ++ [t] ++ p⟩ }) ∧
    (s.params.maxPktCrc < 7 + p.length → exec (.pktBuildCrc t p) s =
      .next { s with resp := some ⟨0x22, .payloadTooLarge, false, 0x00,
        BitVec.ofNat 32 (7 + p.length), []⟩ })

/-- PKT_PARSE_CRC (R135): a short packet, then a bad magic, then the CRC on the fields of R131's
layout. -/
def Obligations.PktParseCrcResult : Prop :=
  (∀ (s : State) (r : Bytes), r.length < 7 → exec (.pktParseCrc r) s =
    .next { s with resp := some ⟨0x23, .invalidHeader, false, 0x00, 0x00000000, []⟩ }) ∧
  (∀ (s : State) (m0 m1 f0 f1 f2 f3 t : Byte) (p : Bytes),
    exec (.pktParseCrc ([m0, m1, f0, f1, f2, f3, t] ++ p)) s =
      .next { s with resp := some (
        if m0 ≠ s.params.crcMagic0 ∨ m1 ≠ s.params.crcMagic1 then
          ⟨0x23, .invalidHeader, false, 0x00, 0x00000000, []⟩
        else if [f0, f1, f2, f3] = crcField s.params.crcFieldOrder (crc32 (t :: p)) then
          ⟨0x23, .ok, false, t, crc32 (t :: p), p⟩
        else ⟨0x23, .checksumMismatch, false, 0x00, crc32 (t :: p), []⟩) })

/-- What a builder builds, the parser of the same variant parses back, in the summation variant
where the sent address is one the receiver accepts. -/
def Obligations.ParseInvertsBuild : Prop :=
  (∀ (s : State) (t : Byte) (p : Bytes), 3 + p.length ≤ s.params.maxPktSum →
    s.params.rxAddrOk s.params.sumAddr = true →
    ∃ u v pkt c, exec (.pktBuildSum t p) s = .next u ∧
      u.resp = some ⟨0x20, .ok, false, c, 0x00000000, pkt⟩ ∧
      exec (.pktParseSum pkt) u = .next v ∧
      v.resp = some ⟨0x21, .ok, false, t, c.setWidth 32, p⟩) ∧
  (∀ (s : State) (t : Byte) (p : Bytes), 7 + p.length ≤ s.params.maxPktCrc →
    ∃ u v pkt c, exec (.pktBuildCrc t p) s = .next u ∧
      u.resp = some ⟨0x22, .ok, false, 0x00, c, pkt⟩ ∧
      exec (.pktParseCrc pkt) u = .next v ∧
      v.resp = some ⟨0x23, .ok, false, t, c, p⟩)

/-- R136 (which the spec marks as derived): a packet operation gives its full result with status OK,
or an error with `rdata = []`, `rbyte = 0x00` and only the `rword` context. -/
def Obligations.NoPartialPacketResult : Prop :=
  ∀ i : Instr, (∃ t p, i = .pktBuildSum t p ∨ i = .pktBuildCrc t p) ∨
      (∃ r, i = .pktParseSum r ∨ i = .pktParseCrc r) →
    ∀ s : State, ∃ u r, exec i s = .next u ∧ u.resp = some r ∧
      (r.status = .ok ∨
        (r.rdata = [] ∧ r.rbyte = 0x00 ∧ r.fvalid = false ∧
          (r.status = .invalidHeader → r.rword = 0x00000000)))

/-- R137: the CRC field in both byte orders, and `crcval` as the inverse of `crcfield`. -/
def Obligations.CrcFieldOrdersAndInverse : Prop :=
  (∀ c : Word, crcField .le c =
      [c.extractLsb' 0 8, c.extractLsb' 8 8, c.extractLsb' 16 8, c.extractLsb' 24 8] ∧
    crcField .be c =
      [c.extractLsb' 24 8, c.extractLsb' 16 8, c.extractLsb' 8 8, c.extractLsb' 0 8]) ∧
  (∀ (o : FieldOrder) (c : Word), crcVal o (crcField o c) = c) ∧
  (∀ (o : FieldOrder) (f : Bytes), f.length = 4 → crcField o (crcVal o f) = f)

/-- spec/42_checksums.md R169 (which the spec marks as derived): in a valid CRC-framed packet, a
flipped bit in bytes 2 .. n-1 gives ChecksumMismatch and one in bytes 0 .. 1 InvalidHeader; in a
valid summation packet, a flipped bit in the span or the checksum byte gives ChecksumMismatch. -/
def Obligations.SingleBitFlipDetected : Prop :=
  (∀ (s t : State) (r : Bytes) (q : Response) (i j : Nat),
    exec (.pktParseCrc r) s = .next t → t.resp = some q → q.status = .ok →
    i < r.length → j < 8 →
    ∃ u x, exec (.pktParseCrc (flipBit r i j)) s = .next u ∧ u.resp = some x ∧
      x.status = if i < 2 then .invalidHeader else .checksumMismatch) ∧
  (∀ (s t : State) (r : Bytes) (q : Response) (i j : Nat),
    exec (.pktParseSum r) s = .next t → t.resp = some q → q.status = .ok →
    1 ≤ i → i < r.length → j < 8 →
    ∃ u x, exec (.pktParseSum (flipBit r i j)) s = .next u ∧ u.resp = some x ∧
      x.status = .checksumMismatch)

/-- R138 and R139, the paths through the block: a packet of either variant, built, framed, fed to
the decoder and parsed, comes back whole. -/
def Obligations.PacketSurvivesLoopBack : Prop :=
  ∀ (s : State) (t : Byte) (p : Bytes), s.params.legal = true → s.params.framing = .both →
    s.buf = [] →
    (s.params.rxAddrOk s.params.sumAddr = true →
      3 + p.length ≤ s.params.maxPktSum → 3 + p.length ≤ s.params.frameCap →
      ∃ u1 u2 u3 u4 r1 r2 r4 rs, exec (.pktBuildSum t p) s = .next u1 ∧ u1.resp = some r1 ∧
        exec (.encFrame r1.rdata) u1 = .next u2 ∧ u2.resp = some r2 ∧
        feedAll r2.rdata u2 = some (u3, rs) ∧ framesOf rs = [r1.rdata] ∧
        exec (.pktParseSum r1.rdata) u3 = .next u4 ∧ u4.resp = some r4 ∧
        r4.status = .ok ∧ r4.rbyte = t ∧ r4.rdata = p) ∧
    (7 + p.length ≤ s.params.maxPktCrc → 7 + p.length ≤ s.params.frameCap →
      ∃ u1 u2 u3 u4 r1 r2 r4 rs, exec (.pktBuildCrc t p) s = .next u1 ∧ u1.resp = some r1 ∧
        exec (.encFrame r1.rdata) u1 = .next u2 ∧ u2.resp = some r2 ∧
        feedAll r2.rdata u2 = some (u3, rs) ∧ framesOf rs = [r1.rdata] ∧
        exec (.pktParseCrc r1.rdata) u3 = .next u4 ∧ u4.resp = some r4 ∧
        r4.status = .ok ∧ r4.rbyte = t ∧ r4.rdata = p)

/-! ### Checksums (spec/42_checksums.md) -/

/-- R160's equation and R161 (which the spec marks as derived): `k` is valid for a span exactly when
it is SUM8 of it. -/
def Obligations.ChecksumByteValidIffSum8 : Prop :=
  ∀ (k : Byte) (span : Bytes),
    (sum8 span).toNat = (256 - naturalSum span % 256) % 256 ∧
    ((k.toNat + naturalSum span) % 256 = 0 ↔ k = sum8 span)

/-- SUM_GEN (R162). -/
def Obligations.SumGenResult : Prop :=
  ∀ (s : State) (d : Bytes), exec (.sumGen d) s =
    .next { s with resp := some ⟨0x30, .ok, false, sum8 d, 0x00000000, []⟩ }

/-- SUM_CHECK (R163): the computed checksum in both outcomes. -/
def Obligations.SumCheckResult : Prop :=
  ∀ (s : State) (k : Byte) (d : Bytes), exec (.sumCheck k d) s =
    .next { s with resp := some ⟨0x31,
      if (k.toNat + naturalSum d) % 256 = 0 then .ok else .checksumMismatch,
      false, sum8 d, 0x00000000, []⟩ }

/-- SUM_CHECK's corner cases (R163): every span has exactly one checksum byte that passes; the order
of the span's bytes and added 0x00 bytes do not matter. -/
def Obligations.SumCheckIgnoresOrderAndZeros : Prop :=
  (∀ (s : State) (d : Bytes), ∃! k : Byte, ∃ t r, exec (.sumCheck k d) s = .next t ∧
    t.resp = some r ∧ r.status = .ok) ∧
  (∀ (s : State) (k : Byte) (d e : Bytes), d.Perm e →
    ∃ t, exec (.sumCheck k d) s = .next t ∧ exec (.sumCheck k e) s = .next t) ∧
  (∀ (s : State) (k : Byte) (d e : Bytes),
    ∃ t, exec (.sumCheck k (d ++ 0x00 :: e)) s = .next t ∧ exec (.sumCheck k (d ++ e)) s = .next t)

/-- R164 (whose loop the spec takes from general knowledge, log 14): entry `n` of the table is eight
steps of the reflected polynomial from `n`. -/
def Obligations.CrcTableByEightSteps : Prop :=
  ∀ n : Byte, crcTable n =
    (fun c : Word => if c.getLsbD 0 then 0xEDB88320 ^^^ (c >>> 1) else c >>> 1)^[8]
      (n.setWidth 32)

/-- R165 (whose update step and whose identity with the bit-serial CRC the spec takes from general
knowledge, log 14): the table-driven CRC32, and its equality with the bit-serial reflected CRC-32 of
polynomial 0x04C11DB7, with the check value. -/
def Obligations.Crc32IsBitSerialCrc : Prop :=
  (∀ s : Bytes, crc32 s =
    ~~~ (s.foldl (fun (crc : Word) (b : Byte) =>
      crcTable ((crc ^^^ b.setWidth 32).extractLsb' 0 8) ^^^ (crc >>> 8)) 0xFFFFFFFF)) ∧
  (∀ s : Bytes, crc32 s = serialCrc s) ∧
  crc32 [0x31, 0x32, 0x33, 0x34, 0x35, 0x36, 0x37, 0x38, 0x39] = 0xCBF43926

/-- CRC_GEN (R166). -/
def Obligations.CrcGenResult : Prop :=
  ∀ (s : State) (d : Bytes), exec (.crcGen d) s =
    .next { s with resp := some ⟨0x32, .ok, false, 0x00, crc32 d, []⟩ }

/-- CRC_CHECK (R167): the computed CRC in both outcomes. -/
def Obligations.CrcCheckResult : Prop :=
  ∀ (s : State) (x : Word) (d : Bytes), exec (.crcCheck x d) s =
    .next { s with resp := some ⟨0x33, if x = crc32 d then .ok else .checksumMismatch,
      false, 0x00, crc32 d, []⟩ }
end

