-- ==== Sys2Proof/Laws/Checksums.lean ====
section
/-! SUPPORT. The algebra of the two checksums: the byte sum is additive, and a CRC bit step is
linear over XOR, so that a table step is eight bit steps. -/

namespace Sys2Proof.Machine

@[simp] theorem byteSum_nil : byteSum [] = 0 := rfl

@[simp] theorem byteSum_cons (b : Byte) (s : Bytes) : byteSum (b :: s) = b.toNat + byteSum s := rfl

@[simp] theorem byteSum_append (s t : Bytes) : byteSum (s ++ t) = byteSum s + byteSum t := by
  induction s with
  | nil => simp
  | cons b s ih => simp [ih, Nat.add_assoc]

theorem sumValid_iff {k : Byte} {s : Bytes} :
    sumValid k s = true ↔ (k.toNat + byteSum s) % 256 = 0 := by simp [sumValid]

/-- A bit step is linear over XOR. -/
theorem crcBitStep_xor (c d : Word) : crcBitStep (c ^^^ d) = crcBitStep c ^^^ crcBitStep d := by
  have h : (c ^^^ d) >>> 1 = c >>> 1 ^^^ d >>> 1 := BitVec.ushiftRight_xor_distrib c d 1
  simp only [crcBitStep, BitVec.getLsbD_xor, h]
  generalize c >>> 1 = u
  generalize d >>> 1 = v
  generalize crcPoly = k
  cases c.getLsbD 0 <;> cases d.getLsbD 0 <;> simp only [Bool.xor_false, Bool.xor_true,
    Bool.not_true, Bool.not_false, if_true, Bool.false_eq_true, if_false]
  · rw [← BitVec.xor_assoc, ← BitVec.xor_assoc, BitVec.xor_comm u k]
  · rw [BitVec.xor_assoc]
  · rw [BitVec.xor_comm k u, BitVec.xor_assoc u, ← BitVec.xor_assoc k, BitVec.xor_self,
      BitVec.zero_xor]

theorem crcBitSteps_xor (n : Nat) (c d : Word) :
    crcBitSteps n (c ^^^ d) = crcBitSteps n c ^^^ crcBitSteps n d := by
  induction n generalizing c d with
  | zero => rfl
  | succ n ih => simp only [crcBitSteps, crcBitStep_xor, ih]

@[simp] theorem crcRun_nil (c : Word) : crcRun c [] = c := rfl

@[simp] theorem crcRun_cons (c : Word) (b : Byte) (s : Bytes) :
    crcRun c (b :: s) = crcRun (crcUpdate c b) s := rfl

theorem crcRun_append (c : Word) (s t : Bytes) : crcRun c (s ++ t) = crcRun (crcRun c s) t := by
  induction s generalizing c with
  | nil => rfl
  | cons b s ih => simp [ih]

end Sys2Proof.Machine
end

