-- ==== Sys2Proof/Laws/Decode.lean ====
section
/-! SUPPORT. What the decoder's and encoder's helpers do, said once: taking words and bytes off the
port, and the fields of a header word. -/

namespace Sys2Proof

/-! ### Bytes off the port -/

/-- All that `takeBytes` can answer: it splits the port's bytes after the first `n`. -/
theorem takeBytes_eq (n : Nat) (bs : Bytes) :
    takeBytes n bs = if bs.length < n then none else some (bs.take n, bs.drop n) := rfl

theorem takeBytes_eq_some {n : Nat} {bs d rest : Bytes} :
    takeBytes n bs = some (d, rest) ↔ bs = d ++ rest ∧ d.length = n := by
  rw [takeBytes_eq]
  constructor
  · intro h
    split at h
    · cases h
    · cases h; simp only [List.take_append_drop, List.length_take, true_and]; omega
  · rintro ⟨rfl, rfl⟩; simp

/-- `takeBytes` waits exactly while fewer than `n` bytes are there. -/
theorem takeBytes_eq_none {n : Nat} {bs : Bytes} : takeBytes n bs = none ↔ bs.length < n := by
  simp [takeBytes_eq]

@[simp] theorem takeBytes_append (d rest : Bytes) :
    takeBytes d.length (d ++ rest) = some (d, rest) :=
  takeBytes_eq_some.mpr ⟨rfl, rfl⟩

/-- All that `withData` can answer. -/
theorem withData_cases (len : Nat) (bs : Bytes) (k : Bytes → Bytes → Decoded) :
    (bs.length < len ∧ withData len bs k = .incomplete) ∨
      ∃ d rest, bs = d ++ rest ∧ d.length = len ∧ withData len bs k = k d rest := by
  rcases h : takeBytes len bs with _ | ⟨d, rest⟩
  · exact .inl ⟨takeBytes_eq_none.mp h, by simp [withData, h]⟩
  · obtain ⟨h1, h2⟩ := takeBytes_eq_some.mp h
    exact .inr ⟨d, rest, h1, h2, by simp [withData, h]⟩

@[simp] theorem withData_append (d rest : Bytes) (k : Bytes → Bytes → Decoded) :
    withData d.length (d ++ rest) k = k d rest := by simp [withData]

/-- Well-formedness as the bound it is. -/
theorem Instr.wf_iff (i : Instr) : i.wf = true ↔ i.data.length ≤ 65535 := by simp [Instr.wf]

/-! ### Words -/

/-- A word is the concatenation of its four bytes. -/
theorem word_of_bytes (w : Word) :
    w.extractLsb' 24 8 ++ w.extractLsb' 16 8 ++ w.extractLsb' 8 8 ++ w.extractLsb' 0 8 = w := by
  refine BitVec.eq_of_getLsbD_eq fun i hi => ?_
  simp only [BitVec.getLsbD_append, BitVec.getLsbD_extractLsb']
  split
  · next h => simp [h]
  · split
    · simp [show i - 8 < 8 by omega, show 8 + (i - 8) = i by omega]
    · split
      · simp [show i - 8 - 8 < 8 by omega, show 16 + (i - 8 - 8) = i by omega]
      · simp [show i - 8 - 8 - 8 < 8 by omega, show 24 + (i - 8 - 8 - 8) = i by omega]

/-- The bytes of a concatenation of four bytes. -/
theorem bytes_of_word (b3 b2 b1 b0 : Byte) :
    wordBytes (b3 ++ b2 ++ b1 ++ b0) = [b0, b1, b2, b3] := by
  simp only [wordBytes, List.cons.injEq, and_true]
  refine ⟨?_, ?_, ?_, ?_⟩ <;> refine BitVec.eq_of_getLsbD_eq fun i hi => ?_ <;>
    simp only [BitVec.getLsbD_append, BitVec.getLsbD_extractLsb', hi, decide_true, Bool.true_and]
  · rw [if_pos (by omega), Nat.zero_add]
  · rw [if_neg (by omega), if_pos (by omega), show 8 + i - 8 = i by omega]
  · rw [if_neg (by omega), if_neg (by omega), if_pos (by omega), show 16 + i - 8 - 8 = i by omega]
  · rw [if_neg (by omega), if_neg (by omega), if_neg (by omega),
      show 24 + i - 8 - 8 - 8 = i by omega]

@[simp] theorem takeWord_wordBytes (w : Word) (rest : Bytes) :
    takeWord (wordBytes w ++ rest) = some (w, rest) := by
  simp only [wordBytes, List.cons_append, List.nil_append, takeWord, word_of_bytes]

/-- All that `takeWord` can answer. -/
theorem takeWord_eq_some {bs rest : Bytes} {w : Word} :
    takeWord bs = some (w, rest) ↔ bs = wordBytes w ++ rest := by
  constructor
  · intro h
    match bs, h with
    | b0 :: b1 :: b2 :: b3 :: bs, h =>
      simp only [takeWord, Option.some.injEq, Prod.mk.injEq] at h
      obtain ⟨rfl, rfl⟩ := h
      simp [bytes_of_word]
  · rintro rfl; simp

/-- `takeWord` waits exactly while fewer than four bytes are there. -/
theorem takeWord_eq_none {bs : Bytes} : takeWord bs = none ↔ bs.length < 4 := by
  match bs with
  | [] | [_] | [_, _] | [_, _, _] => simp [takeWord]
  | _ :: _ :: _ :: _ :: _ => simp [takeWord]

@[simp] theorem wordBytes_length (w : Word) : (wordBytes w).length = 4 := rfl

@[simp] theorem decode_wordBytes (w : Word) (bs : Bytes) :
    decode (wordBytes w ++ bs) = decodeAfterHeader w bs := by simp [decode]

/-! ### The fields of a header word -/

/-- The bits of a header word, field by field. -/
theorem headerWord_getLsbD (op imm8 : Byte) (len i : Nat) :
    (headerWord op imm8 len).getLsbD i =
      if i < 8 then op.getLsbD i
      else if i - 8 < 8 then imm8.getLsbD (i - 8)
      else (BitVec.ofNat 16 len).getLsbD (i - 8 - 8) :=
  (BitVec.getLsbD_append (x := BitVec.ofNat 16 len ++ imm8) (y := op) (i := i)).trans <| by
    rw [BitVec.getLsbD_append]

@[simp] theorem opField_headerWord (op imm8 : Byte) (len : Nat) :
    opField (headerWord op imm8 len) = op := by
  refine BitVec.eq_of_getLsbD_eq fun i hi => ?_
  simp [opField, headerWord_getLsbD, hi]

@[simp] theorem imm8Field_headerWord (op imm8 : Byte) (len : Nat) :
    imm8Field (headerWord op imm8 len) = imm8 := by
  refine BitVec.eq_of_getLsbD_eq fun i hi => ?_
  rw [imm8Field, BitVec.getLsbD_extractLsb', headerWord_getLsbD, if_neg (by omega), if_pos (by omega)]
  simp [hi]

/-- The `len` field holds the count's 16 low bits. -/
theorem lenField_headerWord (op imm8 : Byte) (len : Nat) :
    lenField (headerWord op imm8 len) = len % 65536 := by
  have : (headerWord op imm8 len).extractLsb' 16 16 = BitVec.ofNat 16 len := by
    refine BitVec.eq_of_getLsbD_eq fun i hi => ?_
    rw [BitVec.getLsbD_extractLsb', headerWord_getLsbD, if_neg (by omega), if_neg (by omega)]
    simp [hi, show 16 + i - 8 - 8 = i by omega]
  simp [lenField, this]

theorem lenField_lt (w : Word) : lenField w < 65536 := (w.extractLsb' 16 16).isLt

/-- A header word is built from its own fields. -/
theorem headerWord_of_fields (w : Word) :
    headerWord (opField w) (imm8Field w) (lenField w) = w := by
  refine BitVec.eq_of_getLsbD_eq fun i hi => ?_
  simp only [headerWord_getLsbD, opField, imm8Field, lenField, BitVec.ofNat_toNat,
    BitVec.setWidth_eq, BitVec.getLsbD_extractLsb']
  split
  · next h => simp [h]
  · split
    · simp [show i - 8 < 8 by omega, show 8 + (i - 8) = i by omega]
    · simp [show i - 8 - 8 < 16 by omega, show 16 + (i - 8 - 8) = i by omega]

/-- The four command bytes of DEC_BYTE, whatever its operand (R61, R62). -/
theorem encode_decByte (b : Byte) : encode (.decByte b) = [0x01, b, 0x00, 0x00] := by
  revert b; decide

end Sys2Proof
end

