-- ==== Sys2Proof/Laws/State.lean ====
section
/-! SUPPORT. The small lemmas of the state record: one per field per update, true by rfl, so that
no later proof unfolds a record update. -/

namespace Sys2Proof.Machine

section updates

variable (s : State) (d : DState) (e : Bool) (v op : Byte) (r : Response) (bs : Bytes)
  (st : Status) (rb : Byte) (rw : Word)

@[simp] theorem State.setDState_params : (s.setDState d).params = s.params := rfl
@[simp] theorem State.setDState_dstate : (s.setDState d).dstate = d := rfl
@[simp] theorem State.setDState_buf : (s.setDState d).buf = s.buf := rfl
@[simp] theorem State.setDState_esc : (s.setDState d).esc = s.esc := rfl
@[simp] theorem State.setDState_resp : (s.setDState d).resp = s.resp := rfl
@[simp] theorem State.setDState_cmdIn : (s.setDState d).cmdIn = s.cmdIn := rfl
@[simp] theorem State.setDState_resetIn : (s.setDState d).resetIn = s.resetIn := rfl

@[simp] theorem State.setEsc_params : (s.setEsc e).params = s.params := rfl
@[simp] theorem State.setEsc_dstate : (s.setEsc e).dstate = s.dstate := rfl
@[simp] theorem State.setEsc_buf : (s.setEsc e).buf = s.buf := rfl
@[simp] theorem State.setEsc_esc : (s.setEsc e).esc = e := rfl
@[simp] theorem State.setEsc_resp : (s.setEsc e).resp = s.resp := rfl
@[simp] theorem State.setEsc_cmdIn : (s.setEsc e).cmdIn = s.cmdIn := rfl
@[simp] theorem State.setEsc_resetIn : (s.setEsc e).resetIn = s.resetIn := rfl

@[simp] theorem State.bufAppend_params : (s.bufAppend v).params = s.params := rfl
@[simp] theorem State.bufAppend_dstate : (s.bufAppend v).dstate = s.dstate := rfl
@[simp] theorem State.bufAppend_buf : (s.bufAppend v).buf = s.buf ++ [v] := rfl
@[simp] theorem State.bufAppend_esc : (s.bufAppend v).esc = s.esc := rfl
@[simp] theorem State.bufAppend_resp : (s.bufAppend v).resp = s.resp := rfl
@[simp] theorem State.bufAppend_cmdIn : (s.bufAppend v).cmdIn = s.cmdIn := rfl
@[simp] theorem State.bufAppend_resetIn : (s.bufAppend v).resetIn = s.resetIn := rfl

@[simp] theorem State.bufClear_params : (s.bufClear).params = s.params := rfl
@[simp] theorem State.bufClear_dstate : (s.bufClear).dstate = s.dstate := rfl
@[simp] theorem State.bufClear_buf : (s.bufClear).buf = [] := rfl
@[simp] theorem State.bufClear_esc : (s.bufClear).esc = s.esc := rfl
@[simp] theorem State.bufClear_resp : (s.bufClear).resp = s.resp := rfl
@[simp] theorem State.bufClear_cmdIn : (s.bufClear).cmdIn = s.cmdIn := rfl
@[simp] theorem State.bufClear_resetIn : (s.bufClear).resetIn = s.resetIn := rfl

@[simp] theorem State.respond_params : (s.respond r).params = s.params := rfl
@[simp] theorem State.respond_dstate : (s.respond r).dstate = s.dstate := rfl
@[simp] theorem State.respond_buf : (s.respond r).buf = s.buf := rfl
@[simp] theorem State.respond_esc : (s.respond r).esc = s.esc := rfl
@[simp] theorem State.respond_resp : (s.respond r).resp = some r := rfl
@[simp] theorem State.respond_cmdIn : (s.respond r).cmdIn = s.cmdIn := rfl
@[simp] theorem State.respond_resetIn : (s.respond r).resetIn = s.resetIn := rfl

@[simp] theorem State.raise_params : (s.raise op st rb rw).params = s.params := rfl
@[simp] theorem State.raise_dstate : (s.raise op st rb rw).dstate = s.dstate := rfl
@[simp] theorem State.raise_buf : (s.raise op st rb rw).buf = s.buf := rfl
@[simp] theorem State.raise_esc : (s.raise op st rb rw).esc = s.esc := rfl
@[simp] theorem State.raise_resp : (s.raise op st rb rw).resp = some { rop := op, status := st, rbyte := rb, rword := rw } := rfl
@[simp] theorem State.raise_cmdIn : (s.raise op st rb rw).cmdIn = s.cmdIn := rfl
@[simp] theorem State.raise_resetIn : (s.raise op st rb rw).resetIn = s.resetIn := rfl

@[simp] theorem State.emitFrame_params : (s.emitFrame op bs).params = s.params := rfl
@[simp] theorem State.emitFrame_dstate : (s.emitFrame op bs).dstate = s.dstate := rfl
@[simp] theorem State.emitFrame_buf : (s.emitFrame op bs).buf = s.buf := rfl
@[simp] theorem State.emitFrame_esc : (s.emitFrame op bs).esc = s.esc := rfl
@[simp] theorem State.emitFrame_resp : (s.emitFrame op bs).resp = some { rop := op, fvalid := true, rdata := bs } := rfl
@[simp] theorem State.emitFrame_cmdIn : (s.emitFrame op bs).cmdIn = s.cmdIn := rfl
@[simp] theorem State.emitFrame_resetIn : (s.emitFrame op bs).resetIn = s.resetIn := rfl

@[simp] theorem State.refuseCommand_params : (s.refuseCommand op).params = s.params := rfl
@[simp] theorem State.refuseCommand_dstate : (s.refuseCommand op).dstate = s.dstate := rfl
@[simp] theorem State.refuseCommand_buf : (s.refuseCommand op).buf = s.buf := rfl
@[simp] theorem State.refuseCommand_esc : (s.refuseCommand op).esc = s.esc := rfl
@[simp] theorem State.refuseCommand_resp : (s.refuseCommand op).resp = some { rop := op, status := .unsupportedOperation } := rfl
@[simp] theorem State.refuseCommand_cmdIn : (s.refuseCommand op).cmdIn = s.cmdIn := rfl
@[simp] theorem State.refuseCommand_resetIn : (s.refuseCommand op).resetIn = s.resetIn := rfl

@[simp] theorem State.setCmdIn_params : (s.setCmdIn bs).params = s.params := rfl
@[simp] theorem State.setCmdIn_dstate : (s.setCmdIn bs).dstate = s.dstate := rfl
@[simp] theorem State.setCmdIn_buf : (s.setCmdIn bs).buf = s.buf := rfl
@[simp] theorem State.setCmdIn_esc : (s.setCmdIn bs).esc = s.esc := rfl
@[simp] theorem State.setCmdIn_resp : (s.setCmdIn bs).resp = s.resp := rfl
@[simp] theorem State.setCmdIn_cmdIn : (s.setCmdIn bs).cmdIn = bs := rfl
@[simp] theorem State.setCmdIn_resetIn : (s.setCmdIn bs).resetIn = s.resetIn := rfl

@[simp] theorem State.takeReset_params : (s.takeReset).params = s.params := rfl
@[simp] theorem State.takeReset_dstate : (s.takeReset).dstate = .awaitingFrame := rfl
@[simp] theorem State.takeReset_buf : (s.takeReset).buf = [] := rfl
@[simp] theorem State.takeReset_esc : (s.takeReset).esc = false := rfl
@[simp] theorem State.takeReset_resp : (s.takeReset).resp = none := rfl
@[simp] theorem State.takeReset_cmdIn : (s.takeReset).cmdIn = s.cmdIn := rfl
@[simp] theorem State.takeReset_resetIn : (s.takeReset).resetIn = false := rfl

end updates

end Sys2Proof.Machine
end

