-- ==== Sys2Proof/Laws/FrameCodec.lean ====
section
/-! SUPPORT. What stuffing and one DEC_BYTE step can do, said once. -/

namespace Sys2Proof.Machine

/-! ### Encode -/

theorem needsEscape_iff {p : Params} {b : Byte} :
    needsEscape p b = true ↔ b = p.delim ∨ b = p.esc := by simp [needsEscape]

@[simp] theorem stuff_nil (p : Params) : stuff p [] = [] := rfl

@[simp] theorem stuff_cons (p : Params) (b : Byte) (d : Bytes) :
    stuff p (b :: d) = stuffByte p b ++ stuff p d := rfl

theorem stuff_append (p : Params) (d e : Bytes) : stuff p (d ++ e) = stuff p d ++ stuff p e := by
  induction d with
  | nil => rfl
  | cons b d ih => simp [ih]

theorem stuffByte_special {p : Params} {b : Byte} (h : b = p.delim ∨ b = p.esc) :
    stuffByte p b = [p.esc, b ^^^ p.mask] := by simp [stuffByte, needsEscape_iff.mpr h]

theorem stuffByte_plain {p : Params} {b : Byte} (h1 : b ≠ p.delim) (h2 : b ≠ p.esc) :
    stuffByte p b = [b] := by simp [stuffByte, needsEscape, h1, h2]

/-- The trailer is the trailing delimiter under BOTH and nothing under LEADING_ONLY. -/
theorem trailer_eq (p : Params) :
    trailer p = if p.framing = .both then [p.delim] else [] := by
  cases h : p.framing <;> simp [trailer, h]

/-! ### Decode -/

/-- All that a data byte can do: it is stored, or it overflows a full buffer. -/
theorem State.dataByte_cases (s : State) (b : Byte) :
    (s.buf.length ≠ s.params.frameCap ∧
      s.dataByte b =
        { s with buf := s.buf ++ [unmask s.params s.esc b], esc := false,
                 resp := some { rop := opDecByte } }) ∨
    (s.buf.length = s.params.frameCap ∧
      s.dataByte b =
        { s with dstate := .awaitingFrame, buf := [], esc := false,
                 resp := some { rop := opDecByte, status := .bufferOverflow,
                                rbyte := unmask s.params s.esc b } }) := by
  by_cases h : s.buf.length = s.params.frameCap
  · right; exact ⟨h, by simp only [State.dataByte, State.setEsc_buf, State.setEsc_params, h]; rfl⟩
  · left; exact ⟨h, by simp only [State.dataByte, State.setEsc_buf, State.setEsc_params, h]; rfl⟩

/-- All that one step of the decoder can do (R110), guards included. -/
theorem State.feed_cases (s : State) (b : Byte) :
    (b = s.params.delim ∧ 0 < s.buf.length ∧
      s.feed b =
        { s with dstate := .awaitingFrame, buf := [], esc := false,
                 resp := some { rop := opDecByte, fvalid := true, rdata := s.buf } }) ∨
    (b = s.params.delim ∧ s.buf = [] ∧
      s.feed b =
        { s with dstate := .inFrame, esc := false, resp := some { rop := opDecByte } }) ∨
    (b ≠ s.params.delim ∧ s.dstate = .awaitingFrame ∧
      s.feed b = { s with resp := some { rop := opDecByte } }) ∨
    (b ≠ s.params.delim ∧ s.dstate ≠ .awaitingFrame ∧ b = s.params.esc ∧
      s.feed b = { s with esc := true, resp := some { rop := opDecByte } }) ∨
    (b ≠ s.params.delim ∧ s.dstate ≠ .awaitingFrame ∧ b ≠ s.params.esc ∧
      s.feed b = s.dataByte b) := by
  by_cases h1 : b = s.params.delim
  · rcases Nat.eq_zero_or_pos s.buf.length with h2 | h2
    · right; left
      exact ⟨h1, by simpa using h2, by rw [State.feed, if_pos h1, if_neg (by omega)]; rfl⟩
    · left
      exact ⟨h1, h2, by rw [State.feed, if_pos h1, if_pos h2]; rfl⟩
  · by_cases h2 : s.dstate = .awaitingFrame
    · right; right; left
      exact ⟨h1, h2, by rw [State.feed, if_neg h1, if_pos h2]; rfl⟩
    · by_cases h3 : b = s.params.esc
      · right; right; right; left
        exact ⟨h1, h2, h3, by rw [State.feed, if_neg h1, if_neg h2, if_pos h3]; rfl⟩
      · right; right; right; right
        exact ⟨h1, h2, h3, by simp [State.feed, h1, h2, h3]⟩

@[simp] theorem State.feed_params (s : State) (b : Byte) : (s.feed b).params = s.params := by
  rcases s.feed_cases b with ⟨-, -, h⟩ | ⟨-, -, h⟩ | ⟨-, -, h⟩ | ⟨-, -, -, h⟩ | ⟨-, -, -, h⟩ <;>
    rw [h]
  rcases s.dataByte_cases b with ⟨-, h⟩ | ⟨-, h⟩ <;> rw [h]

@[simp] theorem State.feed_cmdIn (s : State) (b : Byte) : (s.feed b).cmdIn = s.cmdIn := by
  rcases s.feed_cases b with ⟨-, -, h⟩ | ⟨-, -, h⟩ | ⟨-, -, h⟩ | ⟨-, -, -, h⟩ | ⟨-, -, -, h⟩ <;>
    rw [h]
  rcases s.dataByte_cases b with ⟨-, h⟩ | ⟨-, h⟩ <;> rw [h]

@[simp] theorem State.feed_resetIn (s : State) (b : Byte) : (s.feed b).resetIn = s.resetIn := by
  rcases s.feed_cases b with ⟨-, -, h⟩ | ⟨-, -, h⟩ | ⟨-, -, h⟩ | ⟨-, -, -, h⟩ | ⟨-, -, -, h⟩ <;>
    rw [h]
  rcases s.dataByte_cases b with ⟨-, h⟩ | ⟨-, h⟩ <;> rw [h]

end Sys2Proof.Machine
end

