-- ==== Sys2Proof/Laws/PerInstr.lean ====
section
/-! SUPPORT. A statement about every instruction, one lemma per constructor: the command the
encoder writes is as long as spec/30_encoding.md rule R68 reads off its header word. -/

namespace Sys2Proof.Laws.EncodedLength

/-- R68 of the encoder's own output. -/
def Statement (i : Instr) : Prop :=
  i.wf = true → (encode i).length = commandLength i.header

/-- The length of a command with `len` data bytes and an `X` of `x` bytes. -/
theorem of_fields {i : Instr} {x : Nat} (hx : i.xBytes.length = x)
    (hl : commandLength i.header = 4 + x + lenField i.header) : Statement i := by
  intro h
  have : i.data.length ≤ 65535 := by simpa [Instr.wf] using h
  rw [hl, Instr.header, lenField_headerWord, Nat.mod_eq_of_lt (by omega)]
  simp only [encode, List.length_append, wordBytes_length, hx]

/-- A command that is not one of the two special lengths. -/
theorem fields_of {i : Instr} {op : Byte} (h : i.op = op) (h1 : op ≠ opDecByte)
    (h2 : op ≠ opCrcCheck) : commandLength i.header = 4 + 0 + lenField i.header := by
  simp [commandLength, Instr.header, h, h1, h2]

theorem decByte (b : Byte) : Statement (.decByte b) :=
  of_fields (x := 0) rfl (by
    simp only [commandLength, Instr.header, Instr.op, opField_headerWord, lenField_headerWord]
    simp [Instr.data])
theorem encFrame (d : Bytes) : Statement (.encFrame d) :=
  of_fields (x := 0) rfl (fields_of (op := opEncFrame) rfl (by decide) (by decide))
theorem pktBuildSum (t : Byte) (p : Bytes) : Statement (.pktBuildSum t p) :=
  of_fields (x := 0) rfl (fields_of (op := opPktBuildSum) rfl (by decide) (by decide))
theorem pktParseSum (r : Bytes) : Statement (.pktParseSum r) :=
  of_fields (x := 0) rfl (fields_of (op := opPktParseSum) rfl (by decide) (by decide))
theorem pktBuildCrc (t : Byte) (p : Bytes) : Statement (.pktBuildCrc t p) :=
  of_fields (x := 0) rfl (fields_of (op := opPktBuildCrc) rfl (by decide) (by decide))
theorem pktParseCrc (r : Bytes) : Statement (.pktParseCrc r) :=
  of_fields (x := 0) rfl (fields_of (op := opPktParseCrc) rfl (by decide) (by decide))
theorem sumGen (d : Bytes) : Statement (.sumGen d) :=
  of_fields (x := 0) rfl (fields_of (op := opSumGen) rfl (by decide) (by decide))
theorem sumCheck (k : Byte) (d : Bytes) : Statement (.sumCheck k d) :=
  of_fields (x := 0) rfl (fields_of (op := opSumCheck) rfl (by decide) (by decide))
theorem crcGen (d : Bytes) : Statement (.crcGen d) :=
  of_fields (x := 0) rfl (fields_of (op := opCrcGen) rfl (by decide) (by decide))
theorem crcCheck (x : Word) (d : Bytes) : Statement (.crcCheck x d) :=
  of_fields (x := 4) rfl (by simp [commandLength, Instr.header, Instr.op, opDecByte, opCrcCheck])

end Sys2Proof.Laws.EncodedLength
end

