-- ==== Sys2Proof/Laws/Run.lean ====
section
/-! SUPPORT. Sequences of operations and byte streams, step by step. -/

namespace Sys2Proof.Machine

/-! ### One step -/

/-- All that a step can do, guards included. -/
theorem step_cases (s : State) :
    (s.params.legal = false ∧ step s = .refused .illegalElaboration) ∨
    (s.params.legal = true ∧ s.resetIn = true ∧ step s = .next s.takeReset) ∨
    (s.params.legal = true ∧ s.resetIn = false ∧
      ((∃ i rest, s.fetch = .instr i rest ∧ step s = exec i (s.setCmdIn rest)) ∨
       (∃ op rest, (s.fetch = .reservedOp op rest ∨ s.fetch = .nonZeroField op rest) ∧
          step s = .next ((s.setCmdIn rest).refuseCommand op)) ∨
       (s.fetch = .incomplete ∧ step s = .next s))) := by
  rcases hl : s.params.legal with _ | _
  · left; simp [step, hl]
  · right
    rcases hr : s.resetIn with _ | _
    · right
      refine ⟨rfl, rfl, ?_⟩
      rcases hf : s.fetch with ⟨i, rest⟩ | ⟨op, rest⟩ | ⟨op, rest⟩ | _
      · exact .inl ⟨i, rest, rfl, by simp [step, hl, hr, hf]⟩
      · exact .inr <| .inl ⟨op, rest, .inl rfl, by simp [step, hl, hr, hf]⟩
      · exact .inr <| .inl ⟨op, rest, .inr rfl, by simp [step, hl, hr, hf]⟩
      · exact .inr <| .inr ⟨rfl, by simp [step, hl, hr, hf]⟩
    · left; simp [step, hl, hr]

/-! ### Sequences of operations -/

@[simp] theorem exec_decByte (b : Byte) (s : State) : exec (.decByte b) s = .next (s.feed b) := rfl

/-- DEC_BYTE always responds. -/
theorem State.feed_responds (s : State) (b : Byte) : ∃ r, (s.feed b).resp = some r := by
  rcases s.feed_cases b with ⟨-, -, h⟩ | ⟨-, -, h⟩ | ⟨-, -, h⟩ | ⟨-, -, -, h⟩ | ⟨-, -, -, h⟩ <;>
    rw [h]
  · exact ⟨_, rfl⟩
  · exact ⟨_, rfl⟩
  · exact ⟨_, rfl⟩
  · exact ⟨_, rfl⟩
  · rcases s.dataByte_cases b with ⟨-, h⟩ | ⟨-, h⟩ <;> rw [h] <;> exact ⟨_, rfl⟩

@[simp] theorem issueAll_nil (s : State) : issueAll [] s = some (s, []) := rfl

/-- One operation, then the rest. -/
theorem issueAll_cons {i : Instr} {s t : State} {r : Response} (is : List Instr)
    (h : exec i s = .next t) (hr : t.resp = some r) :
    issueAll (i :: is) s = (issueAll is t).map fun x => (x.1, r :: x.2) := by
  rcases h' : issueAll is t with _ | ⟨u, rs⟩ <;> simp [issueAll, h, hr, h']

/-- The operations of `is`, then those of `js`. -/
theorem issueAll_append {is : List Instr} {s t : State} {rs : List Response} (js : List Instr)
    (h : issueAll is s = some (t, rs)) :
    issueAll (is ++ js) s = (issueAll js t).map fun x => (x.1, rs ++ x.2) := by
  induction is generalizing s rs with
  | nil =>
    obtain ⟨rfl, rfl⟩ : s = t ∧ [] = rs := by simpa using h
    simp
  | cons i is ih =>
    simp only [issueAll] at h
    split at h
    · next u hu =>
      split at h
      · next r v rs' hr hv =>
        cases h
        rw [List.cons_append, issueAll_cons _ hu hr, ih hv]
        rcases issueAll js t with _ | x <;> simp
      · cases h
    · cases h
    · cases h

@[simp] theorem feedAll_nil (s : State) : feedAll [] s = some (s, []) := rfl

/-- One byte, then the rest of the stream. -/
theorem feedAll_cons {b : Byte} {s : State} {r : Response} (bs : Bytes)
    (h : (s.feed b).resp = some r) :
    feedAll (b :: bs) s = (feedAll bs (s.feed b)).map fun x => (x.1, r :: x.2) :=
  issueAll_cons _ (exec_decByte b s) h

/-- A stream in two parts: the decoder keeps its state between them. -/
theorem feedAll_append {bs : Bytes} {s t : State} {rs : List Response} (cs : Bytes)
    (h : feedAll bs s = some (t, rs)) :
    feedAll (bs ++ cs) s = (feedAll cs t).map fun x => (x.1, rs ++ x.2) := by
  rw [feedAll, List.map_append]
  exact issueAll_append _ h

@[simp] theorem framesOf_nil : framesOf [] = [] := rfl

@[simp] theorem framesOf_append (rs qs : List Response) :
    framesOf (rs ++ qs) = framesOf rs ++ framesOf qs := List.filterMap_append

theorem framesOf_cons_quiet {r : Response} (rs : List Response) (h : r.fvalid = false) :
    framesOf (r :: rs) = framesOf rs := by simp [framesOf, h]

theorem framesOf_cons_frame {r : Response} (rs : List Response) (h : r.fvalid = true) :
    framesOf (r :: rs) = r.rdata :: framesOf rs := by simp [framesOf, h]

end Sys2Proof.Machine
end

