-- ==== Sys2Proof/Tests/Slice0.lean ====
section
/-! SUPPORT. Tests. Every expected value is written out from the spec: words from
spec/30_encoding.md (R61, R64, R71), results from spec/95_test_vectors.md, table entries from
spec/42_checksums.md section 4. The theorems named `witness_…` show that the hypotheses of a
statement of Obligations.lean can be met together, clause by clause at its boundary values. -/

namespace Sys2Proof.Machine.Tests

-- The tests are many and small: one at a time they keep the compiler's memory low.
set_option Elab.async false

/-! ### States -/

/-- The instance of spec/95_test_vectors.md section 0, with the decoder registers given. -/
def decoder (d : DState) (buf : Bytes) (esc : Bool) : State :=
  { State.reset with dstate := d, buf := buf, esc := esc }

/-- The same with FRAME_CAP = 4 ("cap 4"). -/
def cap4 (d : DState) (buf : Bytes) (esc : Bool) : State :=
  { decoder d buf esc with params := { Params.vectors with frameCap := 4 } }

/-- After reset, with CRC_FIELD_ORDER = BE. -/
def bigEndian : State :=
  { State.reset with params := { Params.vectors with crcFieldOrder := .be } }

/-- After reset, with FRAMING = LEADING_ONLY. -/
def leadingOnly : State :=
  { State.reset with params := { Params.vectors with framing := .leadingOnly } }

/-- A state of the command port: the bytes issued and not yet consumed. -/
def port (bs : Bytes) : State := { decoder .inFrame [0x41] false with cmdIn := bs }

/-- The next state of an outcome, if it is one. -/
def nextOf (o : Host.Outcome State Fault Refusal) : Option State :=
  match o with
  | .next t => some t
  | .fault _ => none
  | .refused _ => none

theorem eq_next_of_nextOf {o : Host.Outcome State Fault Refusal} {t : State}
    (h : nextOf o = some t) : o = .next t := by
  cases o <;> simp_all [nextOf]

/-- The response of an operation. -/
def response (i : Instr) (s : State) : Option Response := (nextOf (exec i s)).bind (·.resp)

/-! ### Well-formed operations and legal elaborations -/

theorem test_wf_longest : (Instr.encFrame (List.replicate 65535 0x00)).wf = true := by
  simp only [Instr.wf, Instr.data, List.length_replicate]
  decide

theorem test_wf_refuses_65536_bytes : (Instr.encFrame (List.replicate 65536 0x00)).wf = false := by
  simp only [Instr.wf, Instr.data, List.length_replicate]
  decide

theorem test_assemble_refuses_65536_bytes :
    (AsmLine.op (.crcGen (List.replicate 65536 0x00))).assemble = none := by
  simp only [AsmLine.assemble, AsmLine.expand, List.all_cons, Instr.wf, Instr.data,
    List.length_replicate]
  rfl

theorem test_legal_vectors : Params.vectors.legal = true := by decide

theorem test_legal_refuses_delim_eq_esc :
    ({ Params.vectors with esc := 0x7E } : Params).legal = false := by decide

theorem test_legal_refuses_zero_mask :
    ({ Params.vectors with mask := 0x00 } : Params).legal = false := by decide

theorem test_legal_refuses_mask_delim_xor_esc :
    ({ Params.vectors with mask := 0x03 } : Params).legal = false := by decide

theorem test_legal_refuses_cap_0 :
    ({ Params.vectors with frameCap := 0 } : Params).legal = false := by decide

theorem test_legal_refuses_cap_65536 :
    ({ Params.vectors with frameCap := 65536 } : Params).legal = false := by decide

theorem test_legal_refuses_maxPktSum_2 :
    ({ Params.vectors with maxPktSum := 2 } : Params).legal = false := by decide

theorem test_legal_refuses_maxPktSum_65536 :
    ({ Params.vectors with maxPktSum := 65536 } : Params).legal = false := by decide

theorem test_legal_refuses_maxPktCrc_6 :
    ({ Params.vectors with maxPktCrc := 6 } : Params).legal = false := by decide

theorem test_legal_refuses_maxPktCrc_65536 :
    ({ Params.vectors with maxPktCrc := 65536 } : Params).legal = false := by decide

theorem test_rxAddrOk : Params.vectors.rxAddrOk 0x50 = true ∧
    Params.vectors.rxAddrOk 0x51 = false ∧ Params.vectors.rxAddrOk 0x00 = false ∧
    Params.vectors.rxAddrOk 0xFF = false := by decide

/-! ### Decoding: a command of every operation, its bytes written out from R61, R62 and R64 -/

theorem test_decode_decByte :
    decode [0x01, 0x7E, 0x00, 0x00] = .instr (.decByte 0x7E) [] := by decide

theorem test_decode_encFrame :
    decode [0x10, 0x00, 0x02, 0x00, 0x01, 0x7E, 0xFF] = .instr (.encFrame [0x01, 0x7E]) [0xFF] := by
  decide

theorem test_decode_pktBuildSum :
    decode [0x20, 0x10, 0x02, 0x00, 0x7E, 0x05] = .instr (.pktBuildSum 0x10 [0x7E, 0x05]) [] := by
  decide

theorem test_decode_pktParseSum :
    decode [0x21, 0x00, 0x04, 0x00, 0x50, 0x10, 0x05, 0xEB] =
      .instr (.pktParseSum [0x50, 0x10, 0x05, 0xEB]) [] := by decide

theorem test_decode_pktBuildCrc :
    decode [0x22, 0x7D, 0x02, 0x00, 0x7E, 0x00] = .instr (.pktBuildCrc 0x7D [0x7E, 0x00]) [] := by
  decide

theorem test_decode_pktParseCrc :
    decode [0x23, 0x00, 0x07, 0x00, 0xAA, 0x55, 0x8D, 0xEF, 0x02, 0xD2, 0x00] =
      .instr (.pktParseCrc [0xAA, 0x55, 0x8D, 0xEF, 0x02, 0xD2, 0x00]) [] := by decide

theorem test_decode_sumGen :
    decode [0x30, 0x00, 0x02, 0x00, 0x10, 0x05] = .instr (.sumGen [0x10, 0x05]) [] := by decide

theorem test_decode_sumCheck :
    decode [0x31, 0xEB, 0x02, 0x00, 0x10, 0x05] = .instr (.sumCheck 0xEB [0x10, 0x05]) [] := by
  decide

theorem test_decode_crcGen :
    decode [0x32, 0x00, 0x00, 0x00] = .instr (.crcGen []) [] := by decide

theorem test_decode_crcCheck :
    decode [0x33, 0x00, 0x01, 0x00, 0x26, 0x39, 0xF4, 0xCB, 0x31] =
      .instr (.crcCheck 0xCBF43926 [0x31]) [] := by decide

/-- The words of spec/95_test_vectors.md section 2.5 that are refused, with the bytes left. -/
theorem test_decode_refusals :
    decode [0x00, 0x00, 0x00, 0x00] = .reservedOp 0x00 [] ∧
    decode [0x34, 0x55, 0x01, 0x00, 0xAA, 0xBB] = .reservedOp 0x34 [0xBB] ∧
    decode [0x01, 0x7E, 0x01, 0x00, 0xAA] = .nonZeroField 0x01 [0xAA] ∧
    decode [0x10, 0x01, 0x00, 0x00] = .nonZeroField 0x10 [] ∧
    decode [0x33, 0x01, 0x00, 0x00, 1, 2, 3, 4, 5] = .nonZeroField 0x33 [5] ∧
    decode [0x21, 0x01, 0x01, 0x00, 0xAA, 0xBB] = .nonZeroField 0x21 [0xBB] := by decide

/-- A command of which the last byte is missing. -/
theorem test_decode_incomplete :
    decode [0x01, 0x7E, 0x00] = .incomplete ∧ decode [0x10, 0x00, 0x01, 0x00] = .incomplete ∧
    decode [0x33, 0x00, 0x00, 0x00, 1, 2, 3] = .incomplete ∧
    decode [0x00, 0x00, 0x01, 0x00] = .incomplete := by decide

/-- Words of spec/95_test_vectors.md sections 2.3 and 2.4, from the encoder. -/
theorem test_header_words :
    (Instr.decByte 0x7E).header = 0x00007E01 ∧
    (Instr.pktBuildSum 0xFF [0x01]).header = 0x0001FF20 ∧
    (Instr.pktBuildCrc 0x7D [0x7E, 0x00]).header = 0x00027D22 ∧
    (Instr.sumCheck 0xEA [0x10, 0x05]).header = 0x0002EA31 := by decide

/-- R68's lengths. -/
theorem test_commandLength :
    commandLength 0x00007E01 = 4 ∧ commandLength 0xFFFF7E01 = 4 ∧
    commandLength 0x00090033 = 17 ∧ commandLength 0x00021020 = 6 ∧
    commandLength 0xFFFF0034 = 65539 := by decide

/-- Instructions of the opcode table by their bits: a header alone, a header with its data bytes
absent and so zero, a CRC_CHECK with its `X`, and a word that is refused. -/
theorem test_decodeTableWord :
    decodeTableWord 32 0x00007E01 = some (.decByte 0x7E) ∧
    decodeTableWord 32 0x00021020 = some (.pktBuildSum 0x10 [0x00, 0x00]) ∧
    decodeTableWord 64 0xCBF4392600000033 = some (.crcCheck 0xCBF43926 []) ∧
    decodeTableWord 32 0x00000034 = none := by decide

theorem test_withFetchWord :
    nextOf (step (State.reset.withFetchWord 32 0x00007E01)) =
      nextOf (exec (.decByte 0x7E) State.reset) ∧
    nextOf (step ((port [0x01]).withFetchWord 64 0xCBF4392600000033)) =
      nextOf (exec (.crcCheck 0xCBF43926 []) (port [0x01])) := by decide +kernel

/-! ### Encodings of register and status values (R20, R200) -/

theorem test_codes : DState.awaitingFrame.bits = 0b00 ∧ DState.inFrame.bits = 0b01 ∧
    DState.endFrame.bits = 0b10 ∧ Status.payloadTooLarge.code = 0x05 := by decide

/-! ### DEC_BYTE (spec/95_test_vectors.md section 2.2 and program P3) -/

theorem test_decByte_closes_after_escape :
    nextOf (exec (.decByte 0x7E) (decoder .inFrame [0x41] true)) =
      some { decoder .awaitingFrame [] false with
             resp := some ⟨0x01, .ok, true, 0x00, 0x00000000, [0x41]⟩ } := by decide

theorem test_decByte_overflow_reports_decoded_byte :
    nextOf (exec (.decByte 0x5E) (cap4 .inFrame [0x01, 0x02, 0x03, 0x04] true)) =
      some { cap4 .awaitingFrame [] false with
             resp := some ⟨0x01, .bufferOverflow, false, 0x7E, 0x00000000, []⟩ } := by decide

/-! ### ENC_FRAME (section 2.1) -/

theorem test_encFrame_stuffs :
    (response (.encFrame [0x01, 0x7E, 0x02, 0x7D, 0x03]) State.reset).map (·.rdata) =
      some [0x7E, 0x01, 0x7D, 0x5E, 0x02, 0x7D, 0x5D, 0x03, 0x7E] := by decide

theorem test_encFrame_leading_only :
    (response (.encFrame [0x01, 0x7E]) leadingOnly).map (·.rdata) =
      some [0x7E, 0x01, 0x7D, 0x5E] := by decide

/-! ### Packets (section 2.3) -/

theorem test_pktBuildSum : response (.pktBuildSum 0x10 [0x7E, 0x05]) State.reset =
    some ⟨0x20, .ok, false, 0x6D, 0x00000000, [0x50, 0x10, 0x7E, 0x05, 0x6D]⟩ := by decide

theorem test_pktBuildSum_at_the_limit :
    (response (.pktBuildSum 0x00 (List.replicate 13 0)) State.reset).map (·.status) = some .ok ∧
    response (.pktBuildSum 0x00 (List.replicate 14 0)) State.reset =
      some ⟨0x20, .payloadTooLarge, false, 0x00, 0x00000011, []⟩ := by decide

theorem test_pktParseSum :
    response (.pktParseSum [0x50, 0x10, 0x7E, 0x05, 0x6D]) State.reset =
      some ⟨0x21, .ok, false, 0x10, 0x0000006D, [0x7E, 0x05]⟩ ∧
    response (.pktParseSum [0x50, 0x01, 0xFF]) State.reset =
      some ⟨0x21, .ok, false, 0x01, 0x000000FF, []⟩ := by decide

/-- Length, then header, then checksum (spec/60_exceptions.md R208). -/
theorem test_pktParseSum_refusals :
    response (.pktParseSum [0x51, 0x10, 0x05, 0x00]) State.reset =
      some ⟨0x21, .invalidHeader, false, 0x00, 0x00000000, []⟩ ∧
    response (.pktParseSum [0x50, 0x10]) State.reset =
      some ⟨0x21, .invalidHeader, false, 0x00, 0x00000000, []⟩ ∧
    response (.pktParseSum [0x50, 0x10, 0x05, 0x00]) State.reset =
      some ⟨0x21, .checksumMismatch, false, 0x00, 0x000000EB, []⟩ := by decide

theorem test_pktBuildCrc :
    response (.pktBuildCrc 0x01 [0x02, 0x03]) State.reset =
      some ⟨0x22, .ok, false, 0x00, 0x55BC801D,
        [0xAA, 0x55, 0x1D, 0x80, 0xBC, 0x55, 0x01, 0x02, 0x03]⟩ ∧
    (response (.pktBuildCrc 0x01 [0x02, 0x03]) bigEndian).map (·.rdata) =
      some [0xAA, 0x55, 0x55, 0xBC, 0x80, 0x1D, 0x01, 0x02, 0x03] := by decide +kernel

theorem test_pktBuildCrc_at_the_limit :
    (response (.pktBuildCrc 0x00 (List.replicate 25 0)) State.reset).map (·.status) = some .ok ∧
    response (.pktBuildCrc 0x00 (List.replicate 26 0)) State.reset =
      some ⟨0x22, .payloadTooLarge, false, 0x00, 0x00000021, []⟩ := by decide +kernel

theorem test_pktParseCrc :
    response (.pktParseCrc [0xAA, 0x55, 0x1D, 0x80, 0xBC, 0x55, 0x01, 0x02, 0x03]) State.reset =
      some ⟨0x23, .ok, false, 0x01, 0x55BC801D, [0x02, 0x03]⟩ ∧
    response (.pktParseCrc [0xAA, 0x55, 0x55, 0xBC, 0x80, 0x1D, 0x01, 0x02, 0x03]) bigEndian =
      some ⟨0x23, .ok, false, 0x01, 0x55BC801D, [0x02, 0x03]⟩ := by decide +kernel

theorem test_pktParseCrc_refusals :
    response (.pktParseCrc [0xAB, 0x55, 0x8D, 0xEF, 0x02, 0xD2, 0x00]) State.reset =
      some ⟨0x23, .invalidHeader, false, 0x00, 0x00000000, []⟩ ∧
    response (.pktParseCrc [0xAA, 0x55, 0x00, 0x00, 0x00, 0x00]) State.reset =
      some ⟨0x23, .invalidHeader, false, 0x00, 0x00000000, []⟩ ∧
    response (.pktParseCrc [0xAA, 0x55, 0x1D, 0x80, 0xBC, 0x55, 0x01, 0x03, 0x03]) State.reset =
      some ⟨0x23, .checksumMismatch, false, 0x00, 0x4CA7B15C, []⟩ := by decide +kernel

/-! ### Checksums (section 2.4) -/

theorem test_sumGen :
    response (.sumGen [0x10, 0x7E, 0x05]) State.reset =
      some ⟨0x30, .ok, false, 0x6D, 0x00000000, []⟩ := by decide

theorem test_sumGen_wraps :
    (response (.sumGen [0x80, 0x80]) State.reset).map (·.rbyte) = some 0x00 ∧
    (response (.sumGen [0xFF, 0xFF, 0xFF]) State.reset).map (·.rbyte) = some 0x03 ∧
    (response (.sumGen []) State.reset).map (·.rbyte) = some 0x00 := by decide

theorem test_sumCheck :
    response (.sumCheck 0xEB [0x10, 0x05]) State.reset =
      some ⟨0x31, .ok, false, 0xEB, 0x00000000, []⟩ ∧
    response (.sumCheck 0xEA [0x10, 0x05]) State.reset =
      some ⟨0x31, .checksumMismatch, false, 0xEB, 0x00000000, []⟩ := by decide

theorem test_sumCheck_empty_span :
    (response (.sumCheck 0x00 []) State.reset).map (·.status) = some .ok ∧
    (response (.sumCheck 0x01 []) State.reset).map (·.status) = some .checksumMismatch := by decide

theorem test_crcGen :
    response (.crcGen [0x31, 0x32, 0x33, 0x34, 0x35, 0x36, 0x37, 0x38, 0x39]) State.reset =
      some ⟨0x32, .ok, false, 0x00, 0xCBF43926, []⟩ := by decide +kernel

theorem test_crcGen_more :
    (response (.crcGen []) State.reset).map (·.rword) = some 0x00000000 ∧
    (response (.crcGen [0x61, 0x62, 0x63]) State.reset).map (·.rword) = some 0x352441C2 ∧
    (response (.crcGen [0xFF, 0xFF, 0xFF, 0xFF]) State.reset).map (·.rword) =
      some 0xFFFFFFFF := by decide +kernel

theorem test_crcCheck :
    response (.crcCheck 0x55BC801D [0x01, 0x02, 0x03]) State.reset =
      some ⟨0x33, .ok, false, 0x00, 0x55BC801D, []⟩ := by decide +kernel

theorem test_crcCheck_takes_a_value :
    response (.crcCheck 0x1D80BC55 [0x01, 0x02, 0x03]) State.reset =
      some ⟨0x33, .checksumMismatch, false, 0x00, 0x55BC801D, []⟩ := by decide +kernel

/-! ### The CRC table -/

/-- Section 4 of spec/42_checksums.md, the entries from index 0x00. -/
def crcEntries0 : List Word :=
  [ 0x00000000, 0x77073096, 0xEE0E612C, 0x990951BA,
    0x076DC419, 0x706AF48F, 0xE963A535, 0x9E6495A3,
    0x0EDB8832, 0x79DCB8A4, 0xE0D5E91E, 0x97D2D988,
    0x09B64C2B, 0x7EB17CBD, 0xE7B82D07, 0x90BF1D91,
    0x1DB71064, 0x6AB020F2, 0xF3B97148, 0x84BE41DE,
    0x1ADAD47D, 0x6DDDE4EB, 0xF4D4B551, 0x83D385C7,
    0x136C9856, 0x646BA8C0, 0xFD62F97A, 0x8A65C9EC,
    0x14015C4F, 0x63066CD9, 0xFA0F3D63, 0x8D080DF5,
    0x3B6E20C8, 0x4C69105E, 0xD56041E4, 0xA2677172,
    0x3C03E4D1, 0x4B04D447, 0xD20D85FD, 0xA50AB56B,
    0x35B5A8FA, 0x42B2986C, 0xDBBBC9D6, 0xACBCF940,
    0x32D86CE3, 0x45DF5C75, 0xDCD60DCF, 0xABD13D59,
    0x26D930AC, 0x51DE003A, 0xC8D75180, 0xBFD06116,
    0x21B4F4B5, 0x56B3C423, 0xCFBA9599, 0xB8BDA50F,
    0x2802B89E, 0x5F058808, 0xC60CD9B2, 0xB10BE924,
    0x2F6F7C87, 0x58684C11, 0xC1611DAB, 0xB6662D3D ]

theorem test_crcTable_from_0 :
    (List.range 64).map (fun k => crcTable (BitVec.ofNat 8 (0 + k))) = crcEntries0 := by
  decide +kernel

/-- Section 4 of spec/42_checksums.md, the entries from index 0x40. -/
def crcEntries1 : List Word :=
  [ 0x76DC4190, 0x01DB7106, 0x98D220BC, 0xEFD5102A,
    0x71B18589, 0x06B6B51F, 0x9FBFE4A5, 0xE8B8D433,
    0x7807C9A2, 0x0F00F934, 0x9609A88E, 0xE10E9818,
    0x7F6A0DBB, 0x086D3D2D, 0x91646C97, 0xE6635C01,
    0x6B6B51F4, 0x1C6C6162, 0x856530D8, 0xF262004E,
    0x6C0695ED, 0x1B01A57B, 0x8208F4C1, 0xF50FC457,
    0x65B0D9C6, 0x12B7E950, 0x8BBEB8EA, 0xFCB9887C,
    0x62DD1DDF, 0x15DA2D49, 0x8CD37CF3, 0xFBD44C65,
    0x4DB26158, 0x3AB551CE, 0xA3BC0074, 0xD4BB30E2,
    0x4ADFA541, 0x3DD895D7, 0xA4D1C46D, 0xD3D6F4FB,
    0x4369E96A, 0x346ED9FC, 0xAD678846, 0xDA60B8D0,
    0x44042D73, 0x33031DE5, 0xAA0A4C5F, 0xDD0D7CC9,
    0x5005713C, 0x270241AA, 0xBE0B1010, 0xC90C2086,
    0x5768B525, 0x206F85B3, 0xB966D409, 0xCE61E49F,
    0x5EDEF90E, 0x29D9C998, 0xB0D09822, 0xC7D7A8B4,
    0x59B33D17, 0x2EB40D81, 0xB7BD5C3B, 0xC0BA6CAD ]

theorem test_crcTable_from_64 :
    (List.range 64).map (fun k => crcTable (BitVec.ofNat 8 (64 + k))) = crcEntries1 := by
  decide +kernel

/-- Section 4 of spec/42_checksums.md, the entries from index 0x80. -/
def crcEntries2 : List Word :=
  [ 0xEDB88320, 0x9ABFB3B6, 0x03B6E20C, 0x74B1D29A,
    0xEAD54739, 0x9DD277AF, 0x04DB2615, 0x73DC1683,
    0xE3630B12, 0x94643B84, 0x0D6D6A3E, 0x7A6A5AA8,
    0xE40ECF0B, 0x9309FF9D, 0x0A00AE27, 0x7D079EB1,
    0xF00F9344, 0x8708A3D2, 0x1E01F268, 0x6906C2FE,
    0xF762575D, 0x806567CB, 0x196C3671, 0x6E6B06E7,
    0xFED41B76, 0x89D32BE0, 0x10DA7A5A, 0x67DD4ACC,
    0xF9B9DF6F, 0x8EBEEFF9, 0x17B7BE43, 0x60B08ED5,
    0xD6D6A3E8, 0xA1D1937E, 0x38D8C2C4, 0x4FDFF252,
    0xD1BB67F1, 0xA6BC5767, 0x3FB506DD, 0x48B2364B,
    0xD80D2BDA, 0xAF0A1B4C, 0x36034AF6, 0x41047A60,
    0xDF60EFC3, 0xA867DF55, 0x316E8EEF, 0x4669BE79,
    0xCB61B38C, 0xBC66831A, 0x256FD2A0, 0x5268E236,
    0xCC0C7795, 0xBB0B4703, 0x220216B9, 0x5505262F,
    0xC5BA3BBE, 0xB2BD0B28, 0x2BB45A92, 0x5CB36A04,
    0xC2D7FFA7, 0xB5D0CF31, 0x2CD99E8B, 0x5BDEAE1D ]

theorem test_crcTable_from_128 :
    (List.range 64).map (fun k => crcTable (BitVec.ofNat 8 (128 + k))) = crcEntries2 := by
  decide +kernel

/-- Section 4 of spec/42_checksums.md, the entries from index 0xC0. -/
def crcEntries3 : List Word :=
  [ 0x9B64C2B0, 0xEC63F226, 0x756AA39C, 0x026D930A,
    0x9C0906A9, 0xEB0E363F, 0x72076785, 0x05005713,
    0x95BF4A82, 0xE2B87A14, 0x7BB12BAE, 0x0CB61B38,
    0x92D28E9B, 0xE5D5BE0D, 0x7CDCEFB7, 0x0BDBDF21,
    0x86D3D2D4, 0xF1D4E242, 0x68DDB3F8, 0x1FDA836E,
    0x81BE16CD, 0xF6B9265B, 0x6FB077E1, 0x18B74777,
    0x88085AE6, 0xFF0F6A70, 0x66063BCA, 0x11010B5C,
    0x8F659EFF, 0xF862AE69, 0x616BFFD3, 0x166CCF45,
    0xA00AE278, 0xD70DD2EE, 0x4E048354, 0x3903B3C2,
    0xA7672661, 0xD06016F7, 0x4969474D, 0x3E6E77DB,
    0xAED16A4A, 0xD9D65ADC, 0x40DF0B66, 0x37D83BF0,
    0xA9BCAE53, 0xDEBB9EC5, 0x47B2CF7F, 0x30B5FFE9,
    0xBDBDF21C, 0xCABAC28A, 0x53B39330, 0x24B4A3A6,
    0xBAD03605, 0xCDD70693, 0x54DE5729, 0x23D967BF,
    0xB3667A2E, 0xC4614AB8, 0x5D681B02, 0x2A6F2B94,
    0xB40BBE37, 0xC30C8EA1, 0x5A05DF1B, 0x2D02EF8D ]

theorem test_crcTable_from_192 :
    (List.range 64).map (fun k => crcTable (BitVec.ofNat 8 (192 + k))) = crcEntries3 := by
  decide +kernel

/-! ### Steps -/

/-- Program P4, steps 1 and 2: a refusal opens nothing. -/
theorem test_step_refusals :
    nextOf (step { State.reset with cmdIn := [0x00, 0x00, 0x00, 0x00] }) =
      some { State.reset with resp := some (unsupported 0x00) } ∧
    nextOf (step { State.reset with cmdIn := [0x01, 0x7E, 0x01, 0x00] }) =
      some { State.reset with resp := some (unsupported 0x01) } := by decide

theorem test_step_reset : nextOf (step { port [0x01, 0x7E] with resetIn := true }) =
    some { State.reset with cmdIn := [0x01, 0x7E] } := by decide

theorem test_step_illegal_elaboration :
    step { State.reset with params := { Params.vectors with mask := 0x00 } } =
      .refused .illegalElaboration := rfl

/-! ### Assembler lines: the examples of R71 and R72 (the braces are characters 123 and 125) -/

/-- A text with `[` and `]` for the braces. -/
def braced (text : String) : List Char :=
  text.toList.map fun c => if c = '[' then Char.ofNat 123 else if c = ']' then Char.ofNat 125 else c

theorem test_assemble_examples :
    assembleText (braced "DEC_BYTE 0x7E") = some [0x01, 0x7E, 0x00, 0x00] ∧
    assembleText (braced "ENC_FRAME [01 7E]") = some [0x10, 0x00, 0x02, 0x00, 0x01, 0x7E] ∧
    assembleText (braced "PKT_BUILD_SUM 0x10, [05]") = some [0x20, 0x10, 0x01, 0x00, 0x05] ∧
    assembleText (braced "CRC_CHECK 0xCBF43926, [31]") =
      some [0x33, 0x00, 0x01, 0x00, 0x26, 0x39, 0xF4, 0xCB, 0x31] := by decide

theorem test_assemble_decStream :
    assembleText (braced "DEC_STREAM [7E 7D]") =
      some [0x01, 0x7E, 0x00, 0x00, 0x01, 0x7D, 0x00, 0x00] ∧
    assembleText (braced "DEC_STREAM []") = some [] := by decide

theorem test_assemble_errors :
    assembleText (braced "DEC_BYTE 256") = none ∧ assembleText (braced "DEC_BYTE 0x7") = none ∧
    assembleText (braced "ENC_FRAME [1]") = none ∧ assembleText (braced "NOP") = none ∧
    assembleText (braced "DEC_BYTE 255") = some [0x01, 0xFF, 0x00, 0x00] := by decide

/-! ### Witnesses: the hypotheses of each statement, met together -/

theorem witness_DecodeInvertsEncode :
    (Instr.crcCheck 0xCBF43926 [0x31]).wf = true ∧
    (Instr.sumGen (List.replicate 65535 0xFF)).wf = true := by
  simp only [Instr.wf, Instr.data, List.length_replicate]
  decide

theorem witness_EncodeInvertsDecode :
    decode [0x31, 0xFF, 0x01, 0x00, 0x7E, 0x99] = .instr (.sumCheck 0xFF [0x7E]) [0x99] := by decide

theorem witness_OpcodeRowsDisjointAndDecoded :
    decode (wordBytes 0x00000033 ++ [0x01, 0x02, 0x03, 0x04]) = .instr (.crcCheck 0x04030201 []) [] ∧
    (∃ r ∈ opcodeRows, r.accepts 0x00000033 = true) ∧
    commandLength 0x00000033 = 4 + ([0x01, 0x02, 0x03, 0x04] : Bytes).length := by decide

theorem witness_ReservedOpRefused :
    (port (wordBytes 0x000100FF ++ [0xAA] ++ [0xBB])).params.legal = true ∧
    (port (wordBytes 0x000100FF ++ [0xAA] ++ [0xBB])).resetIn = false ∧
    ReservedOp ((0x000100FF : Word).extractLsb' 0 8) ∧
    ([0xAA] : Bytes).length = ((0x000100FF : Word).extractLsb' 16 16).toNat ∧
    (port (wordBytes 0x000100FF ++ [0xAA] ++ [0xBB])).cmdIn =
      wordBytes 0x000100FF ++ [0xAA] ++ [0xBB] :=
  ⟨by decide, by decide, by unfold ReservedOp; decide, by decide, by decide⟩

/-- The ends of every range of R65. -/
theorem witness_ReservedOp_ranges :
    ReservedOp 0x00 ∧ ReservedOp 0x02 ∧ ReservedOp 0x0F ∧ ReservedOp 0x11 ∧ ReservedOp 0x1F ∧
    ReservedOp 0x24 ∧ ReservedOp 0x2F ∧ ReservedOp 0x34 := by
  refine ⟨?_, ?_, ?_, ?_, ?_, ?_, ?_, ?_⟩ <;> unfold ReservedOp <;> decide

theorem witness_NonZeroFieldRefused_FB :
    (port (wordBytes 0x00017E01 ++ [0xAA])).params.legal = true ∧
    (port (wordBytes 0x00017E01 ++ [0xAA])).resetIn = false ∧
    (0x00017E01 : Word).extractLsb' 0 8 = (0x01 : Byte) ∧
    (0x00017E01 : Word).extractLsb' 16 16 ≠ (0 : BitVec 16) ∧
    (port (wordBytes 0x00017E01 ++ [0xAA])).cmdIn = wordBytes 0x00017E01 ++ [0xAA] := by decide

theorem witness_NonZeroFieldRefused_FS :
    (port (wordBytes 0x0001FF10 ++ [0xAA] ++ [0xBB])).params.legal = true ∧
    (0x0001FF10 : Word).extractLsb' 0 8 ∈ ([0x10, 0x21, 0x23, 0x30, 0x32] : List Byte) ∧
    (0x0001FF10 : Word).extractLsb' 8 8 ≠ (0 : Byte) ∧
    ([0xAA] : Bytes).length = ((0x0001FF10 : Word).extractLsb' 16 16).toNat ∧
    (port (wordBytes 0x0001FF10 ++ [0xAA] ++ [0xBB])).cmdIn =
      wordBytes 0x0001FF10 ++ [0xAA] ++ [0xBB] := by decide

theorem witness_NonZeroFieldRefused_FC :
    (port (wordBytes 0x00000133 ++ wordBytes 0x04030201 ++ [] ++ [0xBB])).params.legal = true ∧
    (0x00000133 : Word).extractLsb' 0 8 = (0x33 : Byte) ∧
    (0x00000133 : Word).extractLsb' 8 8 ≠ (0 : Byte) ∧
    ([] : Bytes).length = ((0x00000133 : Word).extractLsb' 16 16).toNat ∧
    (port (wordBytes 0x00000133 ++ wordBytes 0x04030201 ++ [] ++ [0xBB])).cmdIn =
      wordBytes 0x00000133 ++ wordBytes 0x04030201 ++ [] ++ [0xBB] := by decide

theorem witness_CommandLengthFromHeader : ([0x01, 0x7E, 0x00] : Bytes).length < 4 := by decide

theorem witness_StepRunsDecodedOperation :
    (port [0x01, 0x7E, 0x00, 0x00]).params.legal = true ∧
    (port [0x01, 0x7E, 0x00, 0x00]).resetIn = false ∧
    decode (port [0x01, 0x7E, 0x00, 0x00]).cmdIn = .instr (.decByte 0x7E) [] := by decide

theorem witness_StepWaitsForWholeCommand :
    (port [0x01, 0x7E, 0x00]).params.legal = true ∧ (port [0x01, 0x7E, 0x00]).resetIn = false ∧
    decode (port [0x01, 0x7E, 0x00]).cmdIn = .incomplete := by decide

/-- The operations, and the state whose port carries them. -/
theorem witness_CommandsRunInOrder :
    let is : List Instr := [.decByte 0x7E, .sumGen [0x01]]
    let s := port (is.flatMap encode ++ [0x99])
    s.params.legal = true ∧ s.resetIn = false ∧ (∀ i ∈ is, i.wf = true) ∧
      s.cmdIn = is.flatMap encode ++ [0x99] ∧
      ∃ t rs, issueAll is { s with cmdIn := [0x99] } = some (t, rs) ∧ rs.length = 2 :=
  ⟨by decide, by decide, by decide, by decide, _, _, rfl, rfl⟩

theorem witness_DecStreamIsOneDecBytePerByte :
    (List.replicate 65535 (0x7E : Byte)).length ≤ 65535 := by
  rw [List.length_replicate]

/-- The shortest list the limit would refuse, as an operation's and as a DEC_STREAM's. -/
theorem witness_DataListLengthLimit :
    ¬ (Instr.encFrame (List.replicate 65536 0x7E)).data.length ≤ 65535 ∧
    65535 < (List.replicate 65536 (0x7E : Byte)).length := by
  simp only [Instr.data, List.length_replicate]
  decide

theorem witness_ResetClearsDecoder :
    ({ port [] with resetIn := true } : State).params.legal = true ∧
    ({ port [] with resetIn := true } : State).resetIn = true ∧ (port []).buf = [0x41] := by decide

theorem witness_ResetMeetsInvariant :
    ({ Params.vectors with frameCap := 65535 } : Params).legal = true ∧
    ({ Params.vectors with frameCap := 1 } : Params).legal = true := by decide

/-- A state inside a frame, with a command that closes it. -/
theorem witness_StepKeepsInvariant :
    (port [0x01, 0x7E, 0x00, 0x00]).Inv ∧ ∃ t, step (port [0x01, 0x7E, 0x00, 0x00]) = .next t ∧
      t.resp = some (emitted [0x41]) := by
  refine ⟨⟨by decide, by decide, by decide, by decide, ?_⟩, _, rfl, by decide⟩
  intro r h
  cases h

theorem witness_AwaitingDecoderIsEmpty :
    (∃ t, step { port [] with resetIn := true } = .next t) ∧
    (State.reset.dstate = .awaitingFrame → State.reset.buf = [] ∧ State.reset.esc = false) ∧
    (∃ t, exec (.decByte 0x7E) State.reset = .next t) ∧ (∃ t, step State.reset = .next t) :=
  ⟨⟨_, rfl⟩, by decide, ⟨_, rfl⟩, ⟨_, rfl⟩⟩

/-- A run of an issue, a step that opens a frame, and a reset. -/
theorem witness_RunsNeverStop :
    Params.vectors.legal = true ∧
    ∃ s, Run (State.resetWith Params.vectors) s ∧ s.dstate = .inFrame ∧ s.resetIn = true :=
  ⟨by decide, _, .assertReset (.step (.issue [0x01, 0x7E, 0x00, 0x00] .start) rfl), by decide, rfl⟩

theorem witness_PureOperationsIgnoreState :
    NotDecByte (.pktParseSum [0x50, 0x01, 0xFF]) ∧ (port []).params = Params.vectors :=
  ⟨(by intro b h; cases h), by decide⟩

theorem witness_OnlyDecByteIsNotIdempotent : NotDecByte (.encFrame [0x7E]) := by
  intro b h
  cases h

/-- An error that resets the decoder, and one that does not. -/
theorem witness_ErrorsArePrecise :
    (∃ t r, exec (.decByte 0x05) (cap4 .inFrame [0x01, 0x02, 0x03, 0x04] false) = .next t ∧
      t.resp = some r ∧ r.status = .bufferOverflow) ∧
    (∃ t r, exec (.sumCheck 0x01 []) (port []) = .next t ∧ t.resp = some r ∧
      r.status = .checksumMismatch) ∧
    (port [0x34, 0x00, 0x00, 0x00]).params.legal = true ∧
    (port [0x34, 0x00, 0x00, 0x00]).resetIn = false ∧
    decode (port [0x34, 0x00, 0x00, 0x00]).cmdIn = .reservedOp 0x34 [] ∧
    decode (port [0x10, 0x01, 0x00, 0x00]).cmdIn = .nonZeroField 0x10 [] :=
  ⟨⟨_, _, rfl, rfl, rfl⟩, ⟨_, _, rfl, rfl, rfl⟩, by decide, by decide, by decide, by decide⟩

theorem witness_LegalInstanceAlwaysSteps :
    (cap4 .endFrame [0x01] true).params.legal = true := by decide

theorem witness_IllegalElaborationRefused :
    (let s := { State.reset with params := { Params.vectors with esc := 0x7E } }
     s.params.delim = s.params.esc) ∧
    (let s := { State.reset with params := { Params.vectors with mask := 0x00 } }
     s.params.mask = 0x00) ∧
    (let s := { State.reset with params := { Params.vectors with mask := 0x03 } }
     s.params.mask = s.params.delim ^^^ s.params.esc) ∧
    ({ Params.vectors with mask := 0x01 } : Params).legal = true := by decide

theorem witness_EncFrameLength : ([0x7E] : Bytes).length ≤ 65535 := by decide

theorem witness_DelimiterOnlyAtBoundaries :
    Params.vectors.legal = true ∧ Params.vectors.framing = .both ∧
    (frame Params.vectors [0x7E])[0]? = some 0x7E ∧
    (frame Params.vectors [0x7E])[1]? = some 0x7D ∧
    leadingOnly.params.legal = true ∧ leadingOnly.params.framing = .leadingOnly := by decide

theorem witness_DelimiterClosesFrame : 0 < (decoder .inFrame [0x41] true).buf.length := by decide

theorem witness_DelimiterOpensFrame : (decoder .inFrame [] true).buf = [] := by decide

theorem witness_AwaitingDropsBytes :
    State.reset.dstate = .awaitingFrame ∧ (0x7D : Byte) ≠ State.reset.params.delim := by decide

theorem witness_EscapeSetsUnmaskFlag :
    let s := decoder .inFrame (List.replicate 15 0x41) false
    s.dstate = .inFrame ∧ s.params.esc ≠ s.params.delim ∧ (0x41 : Byte) ≠ s.params.delim ∧
      (0x41 : Byte) ≠ s.params.esc ∧ s.buf.length < s.params.frameCap := by decide

theorem witness_DataByteUnmaskedAndAppended :
    let s := cap4 .inFrame [0x01, 0x02, 0x03] true
    s.dstate = .inFrame ∧ (0x5E : Byte) ≠ s.params.delim ∧ (0x5E : Byte) ≠ s.params.esc ∧
      s.buf.length ≠ s.params.frameCap := by decide

theorem witness_OverflowResetsDecoder :
    (let s := cap4 .inFrame [0x01, 0x02, 0x03, 0x04] true
     s.dstate = .inFrame ∧ (0x5E : Byte) ≠ s.params.delim ∧ (0x5E : Byte) ≠ s.params.esc ∧
       s.buf.length = s.params.frameCap ∧ s.params.esc ≠ s.params.delim) ∧
    (let s := cap4 .inFrame [0x01, 0x02, 0x03] false
     s.dstate = .inFrame ∧ (0x5E : Byte) ≠ s.params.delim ∧ (0x5E : Byte) ≠ s.params.esc ∧
       s.buf.length + 1 = s.params.frameCap) := by decide

theorem witness_EscapeThenDelimiterDoesNotAbort :
    (let s := decoder .inFrame [0x41] false
     s.dstate = .inFrame ∧ s.params.esc ≠ s.params.delim) ∧
    Params.vectors.legal = true ∧ (0x41 : Byte) ≠ Params.vectors.delim ∧
    (0x41 : Byte) ≠ Params.vectors.esc := by decide

theorem witness_EmptyFrameNeverEmitted :
    let s := decoder .inFrame [] true
    s.buf = [] ∧ s.params.esc ≠ s.params.delim := by decide

/-- Lengths 0, 1, FRAME_CAP and FRAME_CAP + 1. -/
theorem witness_DecodeInvertsEncFrame :
    State.reset.params.legal = true ∧ State.reset.params.framing = .both ∧ State.reset.buf = [] ∧
    ([0x7E] : Bytes).length = 1 ∧ (List.replicate 16 0x7D).length = State.reset.params.frameCap ∧
    (∃ d1 v d2, List.replicate 17 (0x7D : Byte) = d1 ++ v :: d2 ∧
      d1.length = State.reset.params.frameCap) :=
  ⟨by decide, by decide, by decide, by decide, by decide,
    List.replicate 16 0x7D, 0x7D, [], by decide, by decide⟩

theorem witness_EncodeInjectiveDecodeNot :
    State.reset.params.legal = true ∧ State.reset.params.framing = .both ∧
    State.reset.dstate = .awaitingFrame ∧ State.reset.buf = [] ∧
    (0x41 : Byte) ≠ State.reset.params.delim ∧ (0x41 : Byte) ≠ State.reset.params.esc ∧
    (∀ b ∈ ([0x13, 0x37, 0x7D] : Bytes), b ≠ State.reset.params.delim) ∧
    frame Params.vectors [0x7E] = frame Params.vectors [0x7E] := by decide

theorem witness_LeadingOnlyLosesEveryOtherFrame :
    leadingOnly.params.legal = true ∧ leadingOnly.params.framing = .leadingOnly ∧
    leadingOnly.buf = [] ∧
    (∀ d ∈ ([[0x41], [0x7E], List.replicate 16 0x7D] : List Bytes),
      1 ≤ d.length ∧ d.length ≤ leadingOnly.params.frameCap) := by decide

theorem witness_DecoderResynchronises :
    (State.reset.params.legal = true ∧ State.reset.params.framing = .both ∧
      State.reset.dstate = .awaitingFrame ∧ State.reset.buf = [] ∧
      (∀ b ∈ ([0x13, 0x7D] : Bytes), b ≠ State.reset.params.delim) ∧
      (∀ d ∈ ([[0x41], List.replicate 16 0x7E] : List Bytes),
        1 ≤ d.length ∧ d.length ≤ State.reset.params.frameCap)) ∧
    (decoder .inFrame [0x42] true).buf ≠ [] := by decide

theorem witness_PktBuildSumResult :
    3 + (List.replicate 13 (0x00 : Byte)).length ≤ State.reset.params.maxPktSum ∧
    State.reset.params.maxPktSum < 3 + (List.replicate 14 (0x00 : Byte)).length := by decide

theorem witness_PktParseSumResult : ([0x50, 0x10] : Bytes).length < 3 := by decide

theorem witness_PktBuildCrcResult :
    7 + (List.replicate 25 (0x00 : Byte)).length ≤ State.reset.params.maxPktCrc ∧
    State.reset.params.maxPktCrc < 7 + (List.replicate 26 (0x00 : Byte)).length := by decide

theorem witness_PktParseCrcResult :
    ([0xAA, 0x55, 0x00, 0x00, 0x00, 0x00] : Bytes).length < 7 := by decide

theorem witness_ParseInvertsBuild :
    3 + (List.replicate 13 (0x00 : Byte)).length ≤ State.reset.params.maxPktSum ∧
    State.reset.params.rxAddrOk State.reset.params.sumAddr = true ∧
    7 + (List.replicate 25 (0x00 : Byte)).length ≤ State.reset.params.maxPktCrc := by decide

theorem witness_NoPartialPacketResult :
    (∃ t p, Instr.pktBuildSum 0x00 [] = .pktBuildSum t p ∨
      Instr.pktBuildSum 0x00 [] = .pktBuildCrc t p) ∧
    (∃ r, Instr.pktParseCrc [] = .pktParseSum r ∨ Instr.pktParseCrc [] = .pktParseCrc r) :=
  ⟨⟨_, _, .inl rfl⟩, ⟨_, .inr rfl⟩⟩

theorem witness_CrcFieldOrdersAndInverse : ([0x1D, 0x80, 0xBC, 0x55] : Bytes).length = 4 := by decide

/-- The packets of E3 and E4: the first and the last byte of each range may be flipped. -/
theorem witness_SingleBitFlipDetected :
    (∃ t q, exec (.pktParseCrc [0xAA, 0x55, 0x1D, 0x80, 0xBC, 0x55, 0x01, 0x02, 0x03]) State.reset =
      .next t ∧ t.resp = some q ∧ q.status = .ok ∧ 0 < 9 ∧ 8 < 9 ∧ 7 < 8) ∧
    (∃ t q, exec (.pktParseSum [0x50, 0x10, 0x05, 0xEB]) State.reset = .next t ∧
      t.resp = some q ∧ q.status = .ok ∧ 1 ≤ 1 ∧ 3 < 4 ∧ 7 < 8) :=
  ⟨⟨{ State.reset with resp := some ⟨0x23, .ok, false, 0x01, 0x55BC801D, [0x02, 0x03]⟩ }, _,
      eq_next_of_nextOf (by decide +kernel), rfl, rfl, by decide, by decide, by decide⟩,
    ⟨{ State.reset with resp := some ⟨0x21, .ok, false, 0x10, 0x000000EB, [0x05]⟩ }, _,
      eq_next_of_nextOf (by decide), rfl, rfl, by decide, by decide, by decide⟩⟩

theorem witness_PacketSurvivesLoopBack :
    State.reset.params.legal = true ∧ State.reset.params.framing = .both ∧ State.reset.buf = [] ∧
    State.reset.params.rxAddrOk State.reset.params.sumAddr = true ∧
    3 + (List.replicate 13 (0x7E : Byte)).length ≤ State.reset.params.maxPktSum ∧
    3 + (List.replicate 13 (0x7E : Byte)).length ≤ State.reset.params.frameCap ∧
    7 + (List.replicate 9 (0x7E : Byte)).length ≤ State.reset.params.maxPktCrc ∧
    7 + (List.replicate 9 (0x7E : Byte)).length ≤ State.reset.params.frameCap := by decide

theorem witness_SumCheckIgnoresOrderAndZeros :
    ([0x10, 0x05] : Bytes).Perm [0x05, 0x10] := List.Perm.swap _ _ _

end Sys2Proof.Machine.Tests
end

/-! SUPPORT. Legal elaborations (spec/00_scope.md section 4, R4): what the check says, why the
masked bytes stay apart from DELIM and ESC, and the refusal at the step. -/

namespace Sys2Proof

/-! ### The elaboration check -/

/-- The three constraints of R4. -/
theorem Params.bytesLegal_iff {p : Params} :
    p.bytesLegal = true ↔ p.delim ≠ p.esc ∧ p.mask ≠ 0x00 ∧ p.mask ≠ p.delim ^^^ p.esc := by
  simp [Params.bytesLegal, and_assoc]

theorem Params.bytesLegal_of_legal {p : Params} (h : p.legal = true) : p.bytesLegal = true := by
  obtain ⟨⟨hbytes, -⟩, -⟩ := by simpa [Params.legal] using h
  exact hbytes

/-! ### Masking -/

/-- The mask that takes `x` to `y` is the one byte `x ^ y`. -/
theorem xor_eq_iff_mask_eq {w : Nat} {x m y : BitVec w} : x ^^^ m = y ↔ m = x ^^^ y := by
  rw [← BitVec.xor_right_inj x, ← BitVec.xor_assoc, BitVec.xor_self, BitVec.zero_xor]

/-- R4: a byte that must be escaped is neither DELIM nor ESC once masked. -/
theorem Params.masked_ne_special {p : Params} {b : Byte} (h : p.bytesLegal = true)
    (hb : b = p.delim ∨ b = p.esc) : b ^^^ p.mask ≠ p.delim ∧ b ^^^ p.mask ≠ p.esc := by
  obtain ⟨-, hzero, hxor⟩ := Params.bytesLegal_iff.mp h
  simp only [ne_eq, xor_eq_iff_mask_eq]
  rcases hb with rfl | rfl
  · exact ⟨by rwa [BitVec.xor_self], hxor⟩
  · exact ⟨by rwa [BitVec.xor_comm], by rwa [BitVec.xor_self]⟩

namespace Machine

/-! ### The refusal -/

/-- An illegal elaboration has no step but the refusal (R4, log 3). -/
theorem step_of_not_legal {s : State} (h : ¬ s.params.legal = true) :
    step s = .refused .illegalElaboration := by
  rcases step_cases s with ⟨-, hstep⟩ | ⟨hlegal, -⟩ | ⟨hlegal, -⟩
  · exact hstep
  · exact absurd hlegal h
  · exact absurd hlegal h

/-- Settles O25: a broken constraint contradicts the elaboration check, so the step refuses; a mask
that takes DELIM or ESC to one of the two is the zero or the `DELIM ^ ESC` that the check excludes. -/
theorem illegalElaborationRefused : Obligations.IllegalElaborationRefused := by
  refine ⟨fun s hbroken => step_of_not_legal fun hlegal => ?_, fun p hlegal => ?_⟩
  · obtain ⟨hne, hzero, hxor⟩ := Params.bytesLegal_iff.mp (Params.bytesLegal_of_legal hlegal)
    rcases hbroken with heq | heq | heq
    · exact hne heq
    · exact hzero heq
    · exact hxor heq
  · have hbytes := Params.bytesLegal_of_legal hlegal
    obtain ⟨hdelim, hdelim'⟩ := Params.masked_ne_special hbytes (.inl rfl)
    obtain ⟨hesc, hesc'⟩ := Params.masked_ne_special hbytes (.inr rfl)
    exact ⟨hdelim, hdelim', hesc, hesc'⟩

end Machine

end Sys2Proof

/-! SUPPORT. What one operation answers, said once: the sizes of operands and results, the response
of each operation that is not DEC_BYTE (R27), and the decoder registers and the response after a
DEC_BYTE (R110). -/

namespace Sys2Proof

/-! ### Operand sizes -/

/-- R62: the data operand an operation is built from is its `data`, and format FB has none. -/
def Shape.KeepsData : Shape → Prop
  | .fb mk => ∀ b, (mk b).data = []
  | .fs mk => ∀ d, (mk d).data = d
  | .ft mk => ∀ b d, (mk b d).data = d
  | .fc mk => ∀ x d, (mk x d).data = d

theorem shapeOf_keepsData {op : Byte} {sh : Shape} (h : shapeOf op = some sh) : sh.KeepsData := by
  unfold shapeOf at h
  split_ifs at h <;> cases h <;> simp [Shape.KeepsData, Instr.data]

/-- A command that hands `len` data bytes on is made from exactly that many. -/
theorem withData_eq_instr {len : Nat} {bs rest : Bytes} {k : Bytes → Bytes → Decoded} {i : Instr}
    (h : withData len bs k = .instr i rest) :
    ∃ d rest', d.length = len ∧ k d rest' = .instr i rest := by
  rcases withData_cases len bs k with ⟨-, hwait⟩ | ⟨d, rest', -, hlen, hdata⟩
  · cases hwait.symm.trans h
  · exact ⟨d, rest', hlen, hdata.symm.trans h⟩

/-- R61: `len` has 16 bits, so that every operation the decoder reads is well formed. -/
theorem decodeAfterHeader_wf {w : Word} {bs rest : Bytes} {i : Instr}
    (h : decodeAfterHeader w bs = .instr i rest) : i.wf = true := by
  rw [Instr.wf_iff]
  have hlen := lenField_lt w
  unfold decodeAfterHeader at h
  split at h
  case h_1 =>
    obtain ⟨d, rest', -, hk⟩ := withData_eq_instr h
    cases hk
  case h_2 mk hsh =>
    split at h <;> cases h
    simp [shapeOf_keepsData hsh (imm8Field w)]
  case h_3 mk hsh =>
    obtain ⟨d, rest', hd, hk⟩ := withData_eq_instr h
    split at hk <;> cases hk
    rw [shapeOf_keepsData hsh d]
    omega
  case h_4 mk hsh =>
    obtain ⟨d, rest', hd, hk⟩ := withData_eq_instr h
    cases hk
    rw [shapeOf_keepsData hsh (imm8Field w) d]
    omega
  case h_5 mk hsh =>
    split at h
    · cases h
    next x bs' _ =>
      obtain ⟨d, rest', hd, hk⟩ := withData_eq_instr h
      split at hk <;> cases hk
      rw [shapeOf_keepsData hsh x d]
      omega

theorem decode_wf {bs rest : Bytes} {i : Instr} (h : decode bs = .instr i rest) : i.wf = true := by
  unfold decode at h
  split at h
  · cases h
  · exact decodeAfterHeader_wf h

/-! ### Bounds of a legal elaboration -/

/-- R5: the capacity of the frame buffer. -/
theorem Params.frameCap_le_of_legal {p : Params} (h : p.legal = true) : p.frameCap ≤ 65535 := by
  simp only [Params.legal, Params.capLegal, Bool.and_eq_true, decide_eq_true_eq] at h
  omega

/-- R11: the sizes of a packet. -/
theorem Params.maxPkt_le_of_legal {p : Params} (h : p.legal = true) :
    p.maxPktSum ≤ 65535 ∧ p.maxPktCrc ≤ 65535 := by
  simp only [Params.legal, Params.sizesLegal, Bool.and_eq_true, decide_eq_true_eq] at h
  omega

namespace Machine

/-! ### Result sizes -/

theorem stuffByte_length_le (p : Params) (b : Byte) : (stuffByte p b).length ≤ 2 := by
  unfold stuffByte
  split <;> simp

theorem stuff_length_le (p : Params) (d : Bytes) : (stuff p d).length ≤ 2 * d.length := by
  induction d with
  | nil => simp
  | cons b d ih =>
    have hb := stuffByte_length_le p b
    simp only [stuff_cons, List.length_append, List.length_cons]
    omega

theorem trailer_length_le (p : Params) : (trailer p).length ≤ 1 := by
  rw [trailer_eq]
  split <;> simp

/-- R102: a frame is at most twice its data and the two delimiters. -/
theorem frame_length_le (p : Params) (d : Bytes) : (frame p d).length ≤ 2 * d.length + 2 := by
  have hstuff := stuff_length_le p d
  have htrailer := trailer_length_le p
  simp only [frame, List.length_append, List.length_singleton]
  omega

theorem slice_length_le (s : Bytes) (i j : Nat) : (slice s i j).length ≤ s.length := by
  simp only [slice, List.length_drop, List.length_take]
  omega

@[simp] theorem crcField_length (o : FieldOrder) (c : Word) : (crcField o c).length = 4 := by
  cases o <;> rfl

/-! ### The operations that are not DEC_BYTE -/

/-- `r` is what the operation `i` answers under the parameters `p`, in every state that has them,
and the answer is all that it writes (R27); with the shape of that answer (R28, R29, R200). -/
structure PureResponse (p : Params) (i : Instr) (r : Response) : Prop where
  exec_eq : ∀ s : State, s.params = p → exec i s = .next (s.respond r)
  rop_eq : r.rop = i.op
  status_mem : r.status ∈ raisable i
  no_frame : r.fvalid = false
  error_empty : r.status ≠ .ok → r.rdata = []
  rdata_bound : p.legal = true → i.wf = true → r.rdata.length ≤ 131072

/-- R200: every operation can return OK. -/
theorem ok_mem_raisable (i : Instr) : .ok ∈ raisable i := by
  cases i <;> exact List.mem_cons_self

section answers

variable {p : Params} {i : Instr}

/-- An operation that raises `st` answers with no data. -/
theorem answers_of_raise (st : Status) {rb : Byte} {rw : Word} (hst : st ∈ raisable i)
    (h : ∀ s : State, s.params = p → exec i s = .next (s.raise i.op st rb rw)) :
    ∃ r, PureResponse p i r :=
  ⟨{ rop := i.op, status := st, rbyte := rb, rword := rw }, h, rfl, hst, rfl, fun _ => rfl,
    fun _ _ => Nat.zero_le _⟩

/-- An operation that returns OK answers with data of bounded length. -/
theorem answers_of_respond {rb : Byte} {rw : Word} {d : Bytes}
    (hd : p.legal = true → i.wf = true → d.length ≤ 131072)
    (h : ∀ s : State, s.params = p →
      exec i s = .next (s.respond { rop := i.op, rbyte := rb, rword := rw, rdata := d })) :
    ∃ r, PureResponse p i r :=
  ⟨{ rop := i.op, rbyte := rb, rword := rw, rdata := d }, h, rfl, ok_mem_raisable i, rfl,
    fun hne => absurd rfl hne, hd⟩

end answers

/-- The data bound of an answer that carries no data. -/
theorem nil_bound {p : Params} {i : Instr} :
    p.legal = true → i.wf = true → ([] : Bytes).length ≤ 131072 :=
  fun _ _ => Nat.zero_le _

/-- The data bound of an answer cut out of the operand. -/
theorem slice_bound {p : Params} {i : Instr} (j k : Nat) :
    p.legal = true → i.wf = true → (slice i.data j k).length ≤ 131072 := by
  intro _ hwf
  have hdata := (Instr.wf_iff i).mp hwf
  have hslice := slice_length_le i.data j k
  omega

theorem encFrame_answers (p : Params) (d : Bytes) : ∃ r, PureResponse p (.encFrame d) r := by
  refine answers_of_respond (d := frame p d) (fun _ hwf => ?_) (by rintro s rfl; rfl)
  have hdata : d.length ≤ 65535 := (Instr.wf_iff _).mp hwf
  have hframe := frame_length_le p d
  omega

theorem pktBuildSum_answers (p : Params) (t : Byte) (d : Bytes) :
    ∃ r, PureResponse p (.pktBuildSum t d) r := by
  by_cases hbig : p.maxPktSum < 3 + d.length
  · exact answers_of_raise .payloadTooLarge (by simp [raisable])
      (by rintro s rfl; exact if_pos hbig)
  · refine answers_of_respond (d := [p.sumAddr, t] ++ d ++ [sum8 ([t] ++ d)])
      (fun hlegal _ => ?_) (by rintro s rfl; exact if_neg hbig)
    obtain ⟨hmax, -⟩ := Params.maxPkt_le_of_legal hlegal
    simp only [List.length_append, List.length_cons, List.length_nil]
    omega

theorem pktParseSum_answers (p : Params) (d : Bytes) :
    ∃ r, PureResponse p (.pktParseSum d) r := by
  by_cases hshort : d.length < 3
  · exact answers_of_raise .invalidHeader (by simp [raisable])
      (by rintro s rfl; exact if_pos hshort)
  by_cases haddr : p.rxAddrOk (byteAt d 0) = false
  · exact answers_of_raise .invalidHeader (by simp [raisable])
      (by rintro s rfl; exact (if_neg hshort).trans (if_pos haddr))
  by_cases hsum : sumValid (byteAt d (d.length - 1)) (slice d 1 (d.length - 2)) = true
  · exact answers_of_respond (slice_bound 2 (d.length - 2))
      (by rintro s rfl; exact (if_neg hshort).trans ((if_neg haddr).trans (if_pos hsum)))
  · exact answers_of_raise .checksumMismatch (by simp [raisable])
      (by rintro s rfl; exact (if_neg hshort).trans ((if_neg haddr).trans (if_neg hsum)))

theorem pktBuildCrc_answers (p : Params) (t : Byte) (d : Bytes) :
    ∃ r, PureResponse p (.pktBuildCrc t d) r := by
  by_cases hbig : p.maxPktCrc < 7 + d.length
  · exact answers_of_raise .payloadTooLarge (by simp [raisable])
      (by rintro s rfl; exact if_pos hbig)
  · refine answers_of_respond
      (d := p.crcMagic ++ crcField p.crcFieldOrder (crc32 ([t] ++ d)) ++ [t] ++ d)
      (fun hlegal _ => ?_) (by rintro s rfl; exact if_neg hbig)
    obtain ⟨-, hmax⟩ := Params.maxPkt_le_of_legal hlegal
    simp only [List.length_append, crcField_length, Params.crcMagic, List.length_cons,
      List.length_nil]
    omega

theorem pktParseCrc_answers (p : Params) (d : Bytes) :
    ∃ r, PureResponse p (.pktParseCrc d) r := by
  by_cases hshort : d.length < 7
  · exact answers_of_raise .invalidHeader (by simp [raisable])
      (by rintro s rfl; exact if_pos hshort)
  by_cases hmagic : slice d 0 1 ≠ p.crcMagic
  · exact answers_of_raise .invalidHeader (by simp [raisable])
      (by rintro s rfl; exact (if_neg hshort).trans (if_pos hmagic))
  by_cases hcrc : crcVal p.crcFieldOrder (slice d 2 5) ≠ crc32 (slice d 6 (d.length - 1))
  · exact answers_of_raise .checksumMismatch (by simp [raisable])
      (by rintro s rfl; exact (if_neg hshort).trans ((if_neg hmagic).trans (if_pos hcrc)))
  · exact answers_of_respond (slice_bound 7 (d.length - 1))
      (by rintro s rfl; exact (if_neg hshort).trans ((if_neg hmagic).trans (if_neg hcrc)))

theorem sumGen_answers (p : Params) (d : Bytes) : ∃ r, PureResponse p (.sumGen d) r :=
  answers_of_respond nil_bound fun _ _ => rfl

theorem sumCheck_answers (p : Params) (k : Byte) (d : Bytes) :
    ∃ r, PureResponse p (.sumCheck k d) r := by
  by_cases hsum : sumValid k d = true
  · exact answers_of_respond nil_bound fun _ _ => if_pos hsum
  · exact answers_of_raise .checksumMismatch (by simp [raisable]) fun _ _ => if_neg hsum

theorem crcGen_answers (p : Params) (d : Bytes) : ∃ r, PureResponse p (.crcGen d) r :=
  answers_of_respond nil_bound fun _ _ => rfl

theorem crcCheck_answers (p : Params) (x : Word) (d : Bytes) :
    ∃ r, PureResponse p (.crcCheck x d) r := by
  by_cases hcrc : x ≠ crc32 d
  · exact answers_of_raise .checksumMismatch (by simp [raisable]) fun _ _ => if_pos hcrc
  · exact answers_of_respond nil_bound fun _ _ => if_neg hcrc

/-- R27 and R29 for every operation that is not DEC_BYTE. -/
theorem pureResponse_exists {i : Instr} (hi : NotDecByte i) (p : Params) :
    ∃ r, PureResponse p i r := by
  cases i with
  | decByte b => exact absurd rfl (hi b)
  | encFrame d => exact encFrame_answers p d
  | pktBuildSum t d => exact pktBuildSum_answers p t d
  | pktParseSum d => exact pktParseSum_answers p d
  | pktBuildCrc t d => exact pktBuildCrc_answers p t d
  | pktParseCrc d => exact pktParseCrc_answers p d
  | sumGen d => exact sumGen_answers p d
  | sumCheck k d => exact sumCheck_answers p k d
  | crcGen d => exact crcGen_answers p d
  | crcCheck x d => exact crcCheck_answers p x d

/-- All that an operation can do: a DEC_BYTE feeds the decoder, and every other one responds. -/
theorem exec_cases (i : Instr) (s : State) :
    (∃ b, i = .decByte b ∧ exec i s = .next (s.feed b)) ∨
    ∃ r, PureResponse s.params i r ∧ exec i s = .next (s.respond r) := by
  by_cases hi : ∃ b, i = .decByte b
  · obtain ⟨b, rfl⟩ := hi
    exact .inl ⟨b, rfl, exec_decByte b s⟩
  · obtain ⟨r, hr⟩ := pureResponse_exists (not_exists.mp hi) s.params
    exact .inr ⟨r, hr, hr.exec_eq s rfl⟩

/-! ### DEC_BYTE -/

/-- All that a DEC_BYTE can do to the decoder registers: empty the decoder, open a frame, keep the
buffer, or append one byte to a buffer that is not full. -/
theorem State.feed_decoder_cases (s : State) (b : Byte) :
    ((s.feed b).dstate = .awaitingFrame ∧ (s.feed b).buf = [] ∧ (s.feed b).esc = false) ∨
    ((s.feed b).dstate = .inFrame ∧ (s.feed b).buf = s.buf) ∨
    ((s.feed b).dstate = s.dstate ∧ (s.feed b).buf = s.buf ∧
      (s.dstate = .awaitingFrame → (s.feed b).esc = s.esc)) ∨
    (s.dstate ≠ .awaitingFrame ∧ s.buf.length ≠ s.params.frameCap ∧
      (s.feed b).dstate = s.dstate ∧ ∃ v, (s.feed b).buf = s.buf ++ [v]) := by
  rcases s.feed_cases b with ⟨-, -, h⟩ | ⟨-, -, h⟩ | ⟨-, -, h⟩ | ⟨-, hin, -, h⟩ | ⟨-, hin, -, h⟩ <;>
    rw [h]
  · exact .inl ⟨rfl, rfl, rfl⟩
  · exact .inr <| .inl ⟨rfl, rfl⟩
  · exact .inr <| .inr <| .inl ⟨rfl, rfl, fun _ => rfl⟩
  · exact .inr <| .inr <| .inl ⟨rfl, rfl, fun hawait => absurd hawait hin⟩
  · rcases s.dataByte_cases b with ⟨hroom, h'⟩ | ⟨-, h'⟩ <;> rw [h']
    · exact .inr <| .inr <| .inr ⟨hin, hroom, rfl, _, rfl⟩
    · exact .inl ⟨rfl, rfl, rfl⟩

/-- All that a DEC_BYTE can answer: no frame and no data, or OK with the buffer as a frame, which
is not empty. -/
theorem State.feed_response_cases (s : State) (b : Byte) :
    ∃ r, (s.feed b).resp = some r ∧ r.rop = opDecByte ∧
      ((r.fvalid = false ∧ r.rdata = []) ∨
       (r.status = .ok ∧ r.fvalid = true ∧ r.rdata = s.buf ∧ s.buf ≠ [])) := by
  rcases s.feed_cases b with ⟨-, hpos, h⟩ | ⟨-, -, h⟩ | ⟨-, -, h⟩ | ⟨-, -, -, h⟩ | ⟨-, -, -, h⟩ <;>
    rw [h]
  · exact ⟨_, rfl, rfl, .inr ⟨rfl, rfl, rfl, List.length_pos_iff.mp hpos⟩⟩
  · exact ⟨_, rfl, rfl, .inl ⟨rfl, rfl⟩⟩
  · exact ⟨_, rfl, rfl, .inl ⟨rfl, rfl⟩⟩
  · exact ⟨_, rfl, rfl, .inl ⟨rfl, rfl⟩⟩
  · rcases s.dataByte_cases b with ⟨-, h'⟩ | ⟨-, h'⟩ <;> rw [h'] <;>
      exact ⟨_, rfl, rfl, .inl ⟨rfl, rfl⟩⟩

end Machine

end Sys2Proof

/-! SUPPORT. The state between operations (spec/10_state.md): R24, the whole invariant and the
responses, each kept by every operation and by every step, and what the reset gives. -/

namespace Sys2Proof.Machine

/-! ### What leads to a next state -/

/-- All that a step to `t` can have been: a reset, an operation, a refusal of a command, or a
wait. -/
theorem step_next_cases {s t : State} (h : step s = .next t) :
    (s.params.legal = true ∧ s.resetIn = true ∧ t = s.takeReset) ∨
    (s.params.legal = true ∧ s.resetIn = false ∧
      ((∃ i rest, i.wf = true ∧ exec i (s.setCmdIn rest) = .next t) ∨
       (∃ op rest, t = (s.setCmdIn rest).refuseCommand op) ∨
       t = s)) := by
  rcases step_cases s with ⟨-, hs⟩ | ⟨hlegal, hreset, hs⟩ | ⟨hlegal, hreset, hcmd⟩
  · cases hs.symm.trans h
  · cases hs.symm.trans h
    exact .inl ⟨hlegal, hreset, rfl⟩
  · refine .inr ⟨hlegal, hreset, ?_⟩
    rcases hcmd with ⟨i, rest, hfetch, hs⟩ | ⟨op, rest, -, hs⟩ | ⟨-, hs⟩
    · exact .inl ⟨i, rest, decode_wf hfetch, hs.symm.trans h⟩
    · cases hs.symm.trans h
      exact .inr <| .inl ⟨op, rest, rfl⟩
    · cases hs.symm.trans h
      exact .inr <| .inr rfl

/-! ### Reset -/

/-- Settles O12: the step takes the reset, whose fields are those of R31. -/
theorem resetClearsDecoder : Obligations.ResetClearsDecoder := by
  refine ⟨fun s hlegal hreset => ⟨s.takeReset, ?_, rfl, rfl, rfl, rfl, rfl⟩, rfl, rfl, rfl, rfl⟩
  rcases step_cases s with ⟨hillegal, -⟩ | ⟨-, -, hs⟩ | ⟨-, hidle, -⟩
  · cases hillegal.symm.trans hlegal
  · exact hs
  · cases hidle.symm.trans hreset

/-- A state whose decoder registers are those of R31, with no response, meets the invariant. -/
theorem State.Inv.of_reset {s : State} (hlegal : s.params.legal = true)
    (hd : s.dstate = .awaitingFrame) (hb : s.buf = []) (he : s.esc = false)
    (hr : s.resp = none) : s.Inv where
  legal := hlegal
  not_end := by simp [hd]
  buf_bound := by simp [hb]
  awaiting_empty := fun _ => ⟨hb, he⟩
  resp_wf := by simp [hr]

/-- Settles O13: reset gives the registers the values of R31, and log 2's parameters are legal. -/
theorem resetMeetsInvariant : Obligations.ResetMeetsInvariant :=
  ⟨fun _ hlegal => .of_reset hlegal rfl rfl rfl rfl, .of_reset (by decide) rfl rfl rfl rfl⟩

/-! ### R24: an awaiting decoder is empty -/

/-- R24. -/
def State.EmptyWhenAwaiting (s : State) : Prop :=
  s.dstate = .awaitingFrame → s.buf = [] ∧ s.esc = false

theorem State.EmptyWhenAwaiting.feed {s : State} (h : s.EmptyWhenAwaiting) (b : Byte) :
    (s.feed b).EmptyWhenAwaiting := by
  intro hawait
  rcases s.feed_decoder_cases b with ⟨-, hbuf, hesc⟩ | ⟨hopen, -⟩ | ⟨hd, hbuf, hesc⟩ |
    ⟨hin, -, hd, -⟩
  · exact ⟨hbuf, hesc⟩
  · cases hopen.symm.trans hawait
  · have hs : s.dstate = .awaitingFrame := hd.symm.trans hawait
    obtain ⟨hbuf', hesc'⟩ := h hs
    exact ⟨hbuf.trans hbuf', (hesc hs).trans hesc'⟩
  · exact absurd (hd.symm.trans hawait) hin

theorem State.EmptyWhenAwaiting.exec {i : Instr} {s t : State} (h : s.EmptyWhenAwaiting)
    (hexec : exec i s = .next t) : t.EmptyWhenAwaiting := by
  rcases exec_cases i s with ⟨b, -, hfeed⟩ | ⟨r, -, hrespond⟩
  · cases hfeed.symm.trans hexec
    exact h.feed b
  · cases hrespond.symm.trans hexec
    exact h

theorem State.EmptyWhenAwaiting.step {s t : State} (h : s.EmptyWhenAwaiting)
    (hstep : step s = .next t) : t.EmptyWhenAwaiting := by
  rcases step_next_cases hstep with ⟨-, -, rfl⟩ |
    ⟨-, -, ⟨i, rest, -, hexec⟩ | ⟨op, rest, rfl⟩ | rfl⟩
  · exact fun _ => ⟨rfl, rfl⟩
  · exact State.EmptyWhenAwaiting.exec (s := s.setCmdIn rest) h hexec
  · exact h
  · exact h

/-- Settles O15: reset empties the decoder, and a decoder that goes back to AWAITING_FRAME does so
by a frame's end or an overflow, which empty it too. -/
theorem awaitingDecoderIsEmpty : Obligations.AwaitingDecoderIsEmpty := by
  refine ⟨fun _ _ => ⟨rfl, rfl⟩, fun s t hreset hstep => ?_,
    fun _ _ _ h hexec => State.EmptyWhenAwaiting.exec h hexec,
    fun _ _ h hstep => State.EmptyWhenAwaiting.step h hstep⟩
  rcases step_next_cases hstep with ⟨-, -, rfl⟩ | ⟨-, hidle, -⟩
  · exact fun _ => ⟨rfl, rfl⟩
  · cases hidle.symm.trans hreset

/-! ### The responses -/

/-- Settles O17: the response is that of `pureResponse_exists`, which is chosen before the state. -/
theorem pureOperationsIgnoreState : Obligations.PureOperationsIgnoreState := by
  intro i hi p
  obtain ⟨r, hr⟩ := pureResponse_exists hi p
  exact ⟨r, hr.exec_eq⟩

/-- Settles O19: a DEC_BYTE answers without data or with its buffer as a frame, every other
operation without a frame. -/
theorem everyOperationResponds : Obligations.EveryOperationResponds := by
  intro i s
  rcases exec_cases i s with ⟨b, rfl, hfeed⟩ | ⟨r, hr, hrespond⟩
  · obtain ⟨r, hresp, hrop, hcases⟩ := s.feed_response_cases b
    refine ⟨s.feed b, r, hfeed, hresp, hrop, ?_⟩
    rcases hcases with ⟨hquiet, hnil⟩ | ⟨hok, -, hframe, -⟩
    · exact ⟨fun _ => ⟨hnil, hquiet⟩, fun hvalid => by simp [hquiet] at hvalid⟩
    · exact ⟨fun herr => absurd hok herr, fun _ => ⟨b, rfl, hframe⟩⟩
  · exact ⟨s.respond r, r, hrespond, rfl, hr.rop_eq,
      fun herr => ⟨hr.error_empty herr, hr.no_frame⟩, fun hvalid => by simp [hr.no_frame] at hvalid⟩

/-! ### The invariant -/

/-- A response without a frame and without data is well formed. -/
theorem Response.Wf.of_empty {r : Response} (hquiet : r.fvalid = false) (hnil : r.rdata = []) :
    r.Wf where
  error_empty := fun _ => ⟨hnil, hquiet⟩
  frame_emitted := by simp [hquiet]
  rdata_bound := by simp [hnil]

theorem PureResponse.wf {p : Params} {i : Instr} {r : Response} (h : PureResponse p i r)
    (hlegal : p.legal = true) (hwf : i.wf = true) : r.Wf where
  error_empty := fun herr => ⟨h.error_empty herr, h.no_frame⟩
  frame_emitted := by simp [h.no_frame]
  rdata_bound := h.rdata_bound hlegal hwf

/-- A DEC_BYTE emits no more than the buffer holds. -/
theorem State.feed_response_wf {s : State} (h : s.Inv) (b : Byte) :
    ∀ r, (s.feed b).resp = some r → r.Wf := by
  obtain ⟨r, hresp, hrop, hcases⟩ := s.feed_response_cases b
  rintro _ hr
  cases hresp.symm.trans hr
  rcases hcases with ⟨hquiet, hnil⟩ | ⟨hok, -, hframe, hne⟩
  · exact .of_empty hquiet hnil
  · have hcap := Params.frameCap_le_of_legal h.legal
    have hbuf := h.buf_bound
    exact ⟨fun herr => absurd hok herr, fun _ => ⟨hrop, by rwa [hframe]⟩, by rw [hframe]; omega⟩

theorem State.Inv.feed {s : State} (h : s.Inv) (b : Byte) : (s.feed b).Inv where
  legal := by rw [State.feed_params]; exact h.legal
  not_end := by
    rcases s.feed_decoder_cases b with ⟨hd, -⟩ | ⟨hd, -⟩ | ⟨hd, -⟩ | ⟨-, -, hd, -⟩ <;> rw [hd]
    · decide
    · decide
    · exact h.not_end
    · exact h.not_end
  buf_bound := by
    have hbound := h.buf_bound
    rw [State.feed_params]
    rcases s.feed_decoder_cases b with ⟨-, hbuf, -⟩ | ⟨-, hbuf⟩ | ⟨-, hbuf, -⟩ |
      ⟨-, hroom, -, v, hbuf⟩ <;> rw [hbuf]
    · exact Nat.zero_le _
    · exact hbound
    · exact hbound
    · rw [List.length_append, List.length_singleton]
      omega
  awaiting_empty := State.EmptyWhenAwaiting.feed h.awaiting_empty b
  resp_wf := State.feed_response_wf h b

/-- The invariant leaves the ports aside, but for the response, which must be well formed. -/
theorem State.Inv.respond {s : State} (h : s.Inv) {r : Response} (hr : r.Wf) : (s.respond r).Inv :=
  ⟨h.legal, h.not_end, h.buf_bound, h.awaiting_empty, by rintro _ ⟨⟩; exact hr⟩

theorem State.Inv.setCmdIn {s : State} (h : s.Inv) (bs : Bytes) : (s.setCmdIn bs).Inv :=
  ⟨h.legal, h.not_end, h.buf_bound, h.awaiting_empty, h.resp_wf⟩

theorem State.Inv.exec {i : Instr} {s t : State} (h : s.Inv) (hwf : i.wf = true)
    (hexec : exec i s = .next t) : t.Inv := by
  rcases exec_cases i s with ⟨b, -, hfeed⟩ | ⟨r, hr, hrespond⟩
  · cases hfeed.symm.trans hexec
    exact h.feed b
  · cases hrespond.symm.trans hexec
    exact h.respond (hr.wf h.legal hwf)

/-- Settles O14: a reset starts anew, an operation read from the port is well formed and keeps the
invariant, a refusal answers without data, and a wait changes nothing. -/
theorem stepKeepsInvariant : Obligations.StepKeepsInvariant := by
  intro s t h hstep
  rcases step_next_cases hstep with ⟨hlegal, -, rfl⟩ |
    ⟨-, -, ⟨i, rest, hwf, hexec⟩ | ⟨op, rest, rfl⟩ | rfl⟩
  · exact .of_reset hlegal rfl rfl rfl rfl
  · exact (h.setCmdIn rest).exec hwf hexec
  · exact (h.setCmdIn rest).respond (.of_empty rfl rfl)
  · exact h

end Sys2Proof.Machine

/-! SUPPORT. Commands on the port (spec/20_memory.md section 3 and section 4): the decoder reads back
each encoded command (spec/30_encoding.md R60 to R64), an operation reads and writes no byte of the
command port, and therefore a run performs the encoded commands one after another (R51). -/

namespace Sys2Proof

/-! ### The fields of an operation's header (R61) -/

@[simp] theorem opField_header (i : Instr) : opField i.header = i.op :=
  opField_headerWord _ _ _

@[simp] theorem imm8Field_header (i : Instr) : imm8Field i.header = i.imm8 :=
  imm8Field_headerWord _ _ _

theorem lenField_header {i : Instr} (hwf : i.wf = true) : lenField i.header = i.data.length := by
  have hdata := (Instr.wf_iff i).mp hwf
  rw [Instr.header, lenField_headerWord, Nat.mod_eq_of_lt (by omega)]

/-! ### The decoder on a whole command, per format (R62) -/

section formats

variable {w : Word}

theorem decodeAfterHeader_fb {mk : Byte → Instr} {b : Byte}
    (hshape : shapeOf (opField w) = some (.fb mk)) (himm : imm8Field w = b)
    (hlen : lenField w = 0) (rest : Bytes) :
    decodeAfterHeader w rest = .instr (mk b) rest := by
  simp [decodeAfterHeader, hshape, himm, hlen]

theorem decodeAfterHeader_fs {mk : Bytes → Instr} {d : Bytes}
    (hshape : shapeOf (opField w) = some (.fs mk)) (himm : imm8Field w = 0)
    (hlen : lenField w = d.length) (rest : Bytes) :
    decodeAfterHeader w (d ++ rest) = .instr (mk d) rest := by
  simp [decodeAfterHeader, hshape, himm, hlen]

theorem decodeAfterHeader_ft {mk : Byte → Bytes → Instr} {b : Byte} {d : Bytes}
    (hshape : shapeOf (opField w) = some (.ft mk)) (himm : imm8Field w = b)
    (hlen : lenField w = d.length) (rest : Bytes) :
    decodeAfterHeader w (d ++ rest) = .instr (mk b d) rest := by
  simp [decodeAfterHeader, hshape, himm, hlen]

theorem decodeAfterHeader_fc {mk : Word → Bytes → Instr} {d : Bytes}
    (hshape : shapeOf (opField w) = some (.fc mk)) (himm : imm8Field w = 0)
    (hlen : lenField w = d.length) (x : Word) (rest : Bytes) :
    decodeAfterHeader w (wordBytes x ++ (d ++ rest)) = .instr (mk x d) rest := by
  simp [decodeAfterHeader, hshape, himm, hlen]

end formats

/-- R60 to R64: the decoder reads an encoded command back and leaves the bytes after it. -/
theorem decode_encode {i : Instr} (hwf : i.wf = true) (rest : Bytes) :
    decode (encode i ++ rest) = .instr i rest := by
  have hop := opField_header i
  have himm := imm8Field_header i
  have hlen := lenField_header hwf
  have hshape {sh : Shape} (h : shapeOf i.op = some sh) : shapeOf (opField i.header) = some sh :=
    hop ▸ h
  simp only [encode, List.append_assoc, decode_wordBytes]
  cases i with
  | decByte b => exact decodeAfterHeader_fb (hshape rfl) himm hlen rest
  | encFrame d => exact decodeAfterHeader_fs (hshape rfl) himm hlen rest
  | pktBuildSum t p => exact decodeAfterHeader_ft (hshape rfl) himm hlen rest
  | pktParseSum r => exact decodeAfterHeader_fs (hshape rfl) himm hlen rest
  | pktBuildCrc t p => exact decodeAfterHeader_ft (hshape rfl) himm hlen rest
  | pktParseCrc r => exact decodeAfterHeader_fs (hshape rfl) himm hlen rest
  | sumGen d => exact decodeAfterHeader_fs (hshape rfl) himm hlen rest
  | sumCheck k d => exact decodeAfterHeader_ft (hshape rfl) himm hlen rest
  | crcGen d => exact decodeAfterHeader_fs (hshape rfl) himm hlen rest
  | crcCheck x d => exact decodeAfterHeader_fc (hshape rfl) himm hlen x rest

namespace Machine

/-! ### One command -/

/-- Settles O8: the instance is legal and out of reset, so that the step is that of the decoded
command. -/
theorem stepRunsDecodedOperation : Obligations.StepRunsDecodedOperation := by
  intro s i rest hlegal hreset hdecode
  rcases step_cases s with ⟨hillegal, -⟩ | ⟨-, hinreset, -⟩ | ⟨-, -, hcmd⟩
  · cases hillegal.symm.trans hlegal
  · cases hreset.symm.trans hinreset
  · rcases hcmd with ⟨j, rest', hfetch, hs⟩ | ⟨op, rest', hfetch | hfetch, -⟩ | ⟨hfetch, -⟩
    · cases hfetch.symm.trans hdecode
      exact hs
    · cases hfetch.symm.trans hdecode
    · cases hfetch.symm.trans hdecode
    · cases hfetch.symm.trans hdecode

/-- A step performs the encoded operation that stands first on the port (R49, R60). -/
theorem step_of_encode {s : State} {i : Instr} {rest : Bytes} (hlegal : s.params.legal = true)
    (hreset : s.resetIn = false) (hwf : i.wf = true) (hcmd : s.cmdIn = encode i ++ rest) :
    step s = exec i (s.setCmdIn rest) :=
  stepRunsDecodedOperation s i rest hlegal hreset (hcmd ▸ decode_encode hwf rest)

/-! ### An operation leaves the ports to the host -/

/-- A data byte is stored or overflows without regard to the port. -/
theorem State.dataByte_setCmdIn (s : State) (b : Byte) (bs : Bytes) :
    (s.setCmdIn bs).dataByte b = (s.dataByte b).setCmdIn bs := by
  simp only [State.dataByte, apply_ite (State.setCmdIn · bs)]
  rfl

/-- DEC_BYTE does not depend on the bytes that wait on the port. -/
theorem State.feed_setCmdIn (s : State) (b : Byte) (bs : Bytes) :
    (s.setCmdIn bs).feed b = (s.feed b).setCmdIn bs := by
  simp only [State.feed, apply_ite (State.setCmdIn · bs), ← State.dataByte_setCmdIn]
  rfl

/-- An operation changes neither the parameters nor what the host drives: the command port and the
reset input. -/
theorem exec_keeps_inputs {i : Instr} {s t : State} (h : exec i s = .next t) :
    t.params = s.params ∧ t.cmdIn = s.cmdIn ∧ t.resetIn = s.resetIn := by
  rcases exec_cases i s with ⟨b, -, hfeed⟩ | ⟨r, -, hrespond⟩
  · cases hfeed.symm.trans h
    exact ⟨s.feed_params b, s.feed_cmdIn b, s.feed_resetIn b⟩
  · cases hrespond.symm.trans h
    exact ⟨rfl, rfl, rfl⟩

/-- An operation does the same whatever bytes wait on the port. -/
theorem exec_setCmdIn {i : Instr} {s t : State} (h : exec i s = .next t) (bs : Bytes) :
    exec i (s.setCmdIn bs) = .next (t.setCmdIn bs) := by
  rcases exec_cases i s with ⟨b, rfl, hfeed⟩ | ⟨r, hr, hrespond⟩
  · cases hfeed.symm.trans h
    rw [exec_decByte, State.feed_setCmdIn]
  · cases hrespond.symm.trans h
    exact hr.exec_eq (s.setCmdIn bs) rfl

/-! ### Commands in order -/

/-- What issuing a first operation and then others can have been. -/
theorem issueAll_cons_eq_some {i : Instr} {is : List Instr} {s t : State} {rs : List Response}
    (h : issueAll (i :: is) s = some (t, rs)) :
    ∃ u r rs', exec i s = .next u ∧ u.resp = some r ∧ issueAll is u = some (t, rs') ∧
      rs = r :: rs' := by
  simp only [issueAll] at h
  split at h
  · next u hu =>
    split at h
    · next r v rs' hr hv =>
      cases h
      exact ⟨u, r, rs', hu, hr, hv, rfl⟩
    · cases h
  · cases h
  · cases h

/-- A run goes on from the state its first step leads to. -/
theorem run_succ_of_step {M : Host.Core} {s u : M.State} (h : M.step s = .next u) (k : Nat) :
    M.run (k + 1) s = M.run k u := by
  simp only [Host.Core.run, h]

/-- Settles O10, by induction on the operations: the first step performs the first operation with
the later commands still on the port, which changes nothing but that port, so that the run goes on
as the issue of the later operations does. -/
theorem commandsRunInOrder : Obligations.CommandsRunInOrder := by
  intro is
  induction is with
  | nil =>
    intro s t rs rest _ _ _ hcmd hissue
    cases hcmd
    cases hissue
    rfl
  | cons i is ih =>
    intro s t rs rest hlegal hreset hwf hcmd hissue
    obtain ⟨hi, his⟩ := List.forall_mem_cons.mp hwf
    obtain ⟨u, r, rs', hexec, -, hissue', -⟩ := issueAll_cons_eq_some hissue
    obtain ⟨hparams, hport, hidle⟩ := exec_keeps_inputs hexec
    have hstep : step s = .next (u.setCmdIn (is.flatMap encode ++ rest)) := by
      rw [List.flatMap_cons, List.append_assoc] at hcmd
      rw [step_of_encode hlegal hreset hi hcmd]
      exact exec_setCmdIn hexec _
    have hback : (u.setCmdIn (is.flatMap encode ++ rest)).setCmdIn rest = u := by
      cases hport
      rfl
    refine (run_succ_of_step (M := Sys2Proof.core) hstep is.length).trans ?_
    refine ih _ t rs' rest ?_ ?_ his rfl (hback ▸ hissue')
    · exact hparams ▸ hlegal
    · exact hidle.trans hreset

/-! ### Idempotence (R50) -/

/-- The decoder that one delimiter after reset leaves: inside a frame, its buffer empty. -/
def openedFrame : State := State.reset.feed State.reset.params.delim

/-- Settles O18: the response of an operation that is not DEC_BYTE is chosen before the state, and
writing it twice is writing it once; the byte 0x41, fed twice to an opened frame, stands in the
buffer once and then twice. -/
theorem onlyDecByteIsNotIdempotent : Obligations.OnlyDecByteIsNotIdempotent := by
  constructor
  · intro i hi s
    obtain ⟨r, hr⟩ := pureResponse_exists hi s.params
    exact ⟨s.respond r, hr.exec_eq s rfl, hr.exec_eq (s.respond r) rfl, rfl, rfl, rfl⟩
  · exact ⟨0x41, openedFrame, openedFrame.feed 0x41, (openedFrame.feed 0x41).feed 0x41,
      exec_decByte _ _, exec_decByte _ _, by decide, by decide⟩

end Machine

end Sys2Proof

/-! SUPPORT. The command encoding (spec/30_encoding.md): what the decoder does with a header and the
bytes after it, told from the header alone (R60 to R68), the match and mask table (R64), and the
assembler's data lists (R71, R72). -/

namespace Sys2Proof

/-! ### The formats (R62) -/

/-- An operation has the header fields `op` and `imm8`, the `X` bytes `x` and the data bytes `d`. -/
structure Instr.Spells (i : Instr) (op imm8 : Byte) (x d : Bytes) : Prop where
  op_eq : i.op = op
  imm8_eq : i.imm8 = imm8
  xBytes_eq : i.xBytes = x
  data_eq : i.data = d

/-- R62: where a format puts the operands of the operation it builds, under the field `op`. -/
def Shape.Builds (op : Byte) : Shape → Prop
  | .fb mk => ∀ b, (mk b).Spells op b [] []
  | .fs mk => ∀ d, (mk d).Spells op 0 [] d
  | .ft mk => ∀ b d, (mk b d).Spells op b [] d
  | .fc mk => ∀ x d, (mk x d).Spells op 0 (wordBytes x) d

theorem shapeOf_builds {op : Byte} {sh : Shape} (h : shapeOf op = some sh) : sh.Builds op := by
  unfold shapeOf at h
  split_ifs at h <;> cases h <;> subst_vars <;> simp only [Shape.Builds] <;> intros <;>
    exact ⟨rfl, rfl, rfl, rfl⟩

/-- The one spelling of an operation whose fields are those of the word `w`. -/
theorem Instr.Spells.encode_eq {i : Instr} {w : Word} {x d : Bytes}
    (h : i.Spells (opField w) (imm8Field w) x d) (hlen : d.length = lenField w) :
    encode i = wordBytes w ++ (x ++ d) := by
  have hheader : i.header = w := by
    rw [Instr.header, h.op_eq, h.imm8_eq, h.data_eq, hlen, headerWord_of_fields]
  rw [encode, hheader, h.xBytes_eq, h.data_eq, List.append_assoc]

/-- The header is the first word of a command. -/
theorem header_of_encode_append {i : Instr} {w : Word} {bs rest : Bytes}
    (h : wordBytes w ++ bs = encode i ++ rest) : i.header = w := by
  have hword : takeWord (wordBytes w ++ bs) = takeWord (encode i ++ rest) := congrArg takeWord h
  simp only [encode, List.append_assoc, takeWord_wordBytes, Option.some.injEq,
    Prod.mk.injEq] at hword
  obtain ⟨hheader, -⟩ := hword
  exact hheader.symm

/-- R62: the must-be-zero field of a format is 0 in the word `w`. -/
def Shape.ZeroField (w : Word) : Shape → Prop
  | .fb _ => lenField w = 0
  | .fs _ => imm8Field w = 0
  | .ft _ => True
  | .fc _ => imm8Field w = 0

/-- A header that spells an operation: its `op` is in the opcode map, and its must-be-zero field
is 0 (R64, R65, R66). -/
def AcceptedHeader (w : Word) : Prop := ∃ sh, shapeOf (opField w) = some sh ∧ sh.ZeroField w

theorem acceptedHeader_iff {w : Word} {sh : Shape} (h : shapeOf (opField w) = some sh) :
    AcceptedHeader w ↔ sh.ZeroField w := by
  simp [AcceptedHeader, h]

theorem not_acceptedHeader_of_reserved {w : Word} (h : shapeOf (opField w) = none) :
    ¬ AcceptedHeader w := by
  simp [AcceptedHeader, h]

/-! ### The length of a command (R68) -/

/-- R62: how many bytes of a command of this format follow its header `w`. -/
def Shape.bodyLength (w : Word) : Shape → Nat
  | .fb _ => 0
  | .fs _ => lenField w
  | .ft _ => lenField w
  | .fc _ => 4 + lenField w

theorem commandLength_of_shape {w : Word} {sh : Shape} (h : shapeOf (opField w) = some sh) :
    commandLength w = 4 + sh.bodyLength w := by
  unfold commandLength
  generalize opField w = op at h ⊢
  unfold shapeOf at h
  split_ifs at h <;> cases h <;> subst_vars <;> simp +decide [Shape.bodyLength, ← Nat.add_assoc]

/-- R65: a reserved `op` has its `len` data bytes. -/
theorem commandLength_of_reserved {w : Word} (h : shapeOf (opField w) = none) :
    commandLength w = 4 + lenField w := by
  have hfb : opField w ≠ opDecByte := fun hop => by cases (hop ▸ h : shapeOf opDecByte = none)
  have hfc : opField w ≠ opCrcCheck := fun hop => by cases (hop ▸ h : shapeOf opCrcCheck = none)
  simp [commandLength, hfb, hfc]

/-! ### What the decoder makes of a header and the bytes after it -/

/-- What the decoder can make of a whole command, whose header is `w` and whose other bytes are
`body`, with the bytes `rest` after it: an operation that is spelled so, or a refusal. -/
inductive CommandRead (w : Word) (body rest : Bytes) : Decoded → Prop
  | instr {i : Instr} (accepted : AcceptedHeader w) (spelled : encode i = wordBytes w ++ body) :
      CommandRead w body rest (.instr i rest)
  | reservedOp (refused : ¬ AcceptedHeader w) :
      CommandRead w body rest (.reservedOp (opField w) rest)
  | nonZeroField (refused : ¬ AcceptedHeader w) :
      CommandRead w body rest (.nonZeroField (opField w) rest)

theorem CommandRead.remaining_eq {w : Word} {body rest : Bytes} {r : Decoded}
    (h : CommandRead w body rest r) : Machine.remaining r = some rest := by
  cases h <;> rfl

/-- A command whose header is not accepted is refused under its `op` (R65, R66). -/
theorem CommandRead.refusal {w : Word} {body rest : Bytes} {r : Decoded}
    (h : CommandRead w body rest r) (hrefused : ¬ AcceptedHeader w) :
    r = .reservedOp (opField w) rest ∨ r = .nonZeroField (opField w) rest := by
  cases h with
  | instr haccepted => exact absurd haccepted hrefused
  | reservedOp => exact .inl rfl
  | nonZeroField => exact .inr rfl

/-- A command whose header is accepted is an operation (R64). -/
theorem CommandRead.operation {w : Word} {body rest : Bytes} {r : Decoded}
    (h : CommandRead w body rest r) (haccepted : AcceptedHeader w) : ∃ i, r = .instr i rest := by
  cases h with
  | instr => exact ⟨_, rfl⟩
  | reservedOp hrefused => exact absurd haccepted hrefused
  | nonZeroField hrefused => exact absurd haccepted hrefused

/-- What the decoder can make of the header `w` and the further bytes `bs`: it waits while they are
too few, and else reads as many as `commandLength` says. -/
def HeaderRead (w : Word) (bs : Bytes) (r : Decoded) : Prop :=
  (4 + bs.length < commandLength w ∧ r = .incomplete) ∨
    ∃ body rest, bs = body ++ rest ∧ 4 + body.length = commandLength w ∧ CommandRead w body rest r

/-- What was read as an operation has an accepted header and is that operation's spelling. -/
theorem HeaderRead.of_instr {w : Word} {bs rest : Bytes} {i : Instr}
    (h : HeaderRead w bs (.instr i rest)) :
    AcceptedHeader w ∧ wordBytes w ++ bs = encode i ++ rest := by
  rcases h with ⟨-, hwait⟩ | ⟨body, _, rfl, -, hread⟩
  · cases hwait
  · cases hread with
    | instr haccepted hspelled => exact ⟨haccepted, by rw [hspelled, List.append_assoc]⟩

/-- The test of a must-be-zero field (R66). -/
theorem CommandRead.of_zeroField {w : Word} {sh : Shape} {i : Instr} {x d rest : Bytes}
    {zero : Prop} [Decidable zero] (hsh : shapeOf (opField w) = some sh)
    (hzero : sh.ZeroField w ↔ zero)
    (hspells : zero → i.Spells (opField w) (imm8Field w) x d ∧ d.length = lenField w) :
    CommandRead w (x ++ d) rest
      (if zero then .instr i rest else .nonZeroField (opField w) rest) := by
  have haccepted := (acceptedHeader_iff hsh).trans hzero
  split
  case isTrue h =>
    obtain ⟨hi, hlen⟩ := hspells h
    exact .instr (haccepted.mpr h) (hi.encode_eq hlen)
  case isFalse h => exact .nonZeroField (h ∘ haccepted.mp)

/-- The data bytes of a command, after its `X` bytes `x`. -/
theorem HeaderRead.of_withData {w : Word} {x bs : Bytes} {k : Bytes → Bytes → Decoded}
    (htotal : commandLength w = 4 + (x.length + lenField w))
    (hread : ∀ d rest, d.length = lenField w → CommandRead w (x ++ d) rest (k d rest)) :
    HeaderRead w (x ++ bs) (withData (lenField w) bs k) := by
  rcases withData_cases (lenField w) bs k with ⟨hshort, hwait⟩ | ⟨d, rest, rfl, hlen, hdata⟩
  · exact .inl ⟨by rw [htotal, List.length_append]; omega, hwait⟩
  · refine .inr ⟨x ++ d, rest, (List.append_assoc ..).symm, ?_, hdata ▸ hread d rest hlen⟩
    rw [htotal, List.length_append, hlen]

/-- R60 to R68: all that the decoder can answer, format by format. -/
theorem decodeAfterHeader_cases (w : Word) (bs : Bytes) :
    HeaderRead w bs (decodeAfterHeader w bs) := by
  unfold decodeAfterHeader
  split
  case h_1 hsh =>
    exact .of_withData (x := []) (by simpa using commandLength_of_reserved hsh)
      fun d rest _ => .reservedOp (not_acceptedHeader_of_reserved hsh)
  case h_2 mk hsh =>
    refine .inr ⟨[], bs, rfl, (commandLength_of_shape hsh).symm, ?_⟩
    exact .of_zeroField (x := []) (d := []) hsh Iff.rfl
      fun hzero => ⟨shapeOf_builds hsh _, hzero.symm⟩
  case h_3 mk hsh =>
    have htotal : commandLength w = 4 + lenField w := commandLength_of_shape hsh
    refine .of_withData (x := []) (by simpa using htotal) fun d rest hlen => ?_
    exact .of_zeroField hsh Iff.rfl fun hzero => ⟨hzero ▸ shapeOf_builds hsh d, hlen⟩
  case h_4 mk hsh =>
    have htotal : commandLength w = 4 + lenField w := commandLength_of_shape hsh
    refine .of_withData (x := []) (by simpa using htotal) fun d rest hlen => ?_
    exact .instr ((acceptedHeader_iff hsh).mpr trivial) ((shapeOf_builds hsh _ d).encode_eq hlen)
  case h_5 mk hsh =>
    have htotal := commandLength_of_shape hsh
    split
    case h_1 hword =>
      have := takeWord_eq_none.mp hword
      exact .inl ⟨by rw [htotal, Shape.bodyLength]; omega, rfl⟩
    case h_2 x bs' hword =>
      rw [takeWord_eq_some.mp hword]
      refine .of_withData htotal fun d rest hlen => ?_
      exact .of_zeroField hsh Iff.rfl fun hzero => ⟨hzero ▸ shapeOf_builds hsh x d, hlen⟩

/-- A whole command is read up to its last byte. -/
theorem decode_command {w : Word} {body rest : Bytes} (hlen : 4 + body.length = commandLength w) :
    CommandRead w body rest (decode (wordBytes w ++ (body ++ rest))) := by
  rw [decode_wordBytes]
  rcases decodeAfterHeader_cases w (body ++ rest) with ⟨hshort, -⟩ | ⟨body', rest', heq, hlen', h⟩
  · rw [List.length_append] at hshort
    omega
  · obtain ⟨rfl, rfl⟩ := List.append_inj heq (by omega)
    exact h

/-! ### Decode and encode agree -/

/-- Settles O1: the header keeps the fields of a well-formed operation, and each format reads its
operands back. -/
theorem decodeInvertsEncode : Obligations.DecodeInvertsEncode :=
  fun _ rest hwf => decode_encode hwf rest

/-- Settles O2: the port holds a header word and a whole command, which is the spelling of the
operation it was read as. -/
theorem encodeInvertsDecode : Obligations.EncodeInvertsDecode := by
  intro bs i rest h
  refine ⟨decode_wf h, ?_⟩
  rcases hword : takeWord bs with _ | ⟨w, bs'⟩
  · simp [decode, hword] at h
  · obtain rfl := takeWord_eq_some.mp hword
    rw [decode_wordBytes] at h
    exact (h ▸ decodeAfterHeader_cases w bs').of_instr.2

/-- Settles O7: the total of R68 is `commandLength`, so that a header with too few bytes after it is
incomplete, and one with enough is consumed up to that total as an operation or as a refusal. -/
theorem commandLengthFromHeader : Obligations.CommandLengthFromHeader := by
  constructor
  · intro w bs
    rw [decode_wordBytes]
    rcases decodeAfterHeader_cases w bs with hwait | ⟨body, rest, rfl, hlen, hread⟩
    · exact .inl hwait
    · refine .inr ⟨wordBytes w ++ body, rest, (List.append_assoc ..).symm, ?_, ?_⟩
      · rw [List.length_append, wordBytes_length, hlen]
        rfl
      · exact hread.remaining_eq
  · intro bs hshort
    simp [decode, takeWord_eq_none.mpr hshort]

/-! ### Refused commands (R65, R66) -/

theorem shapeOf_eq_none_iff {op : Byte} : shapeOf op = none ↔
    op ∉ [opDecByte, opEncFrame, opPktBuildSum, opPktParseSum, opPktBuildCrc, opPktParseCrc,
      opSumGen, opSumCheck, opCrcGen, opCrcCheck] := by
  unfold shapeOf
  split_ifs <;> simp_all

/-- R65's ranges hold the values outside the opcode map. -/
theorem reservedOp_iff {op : Byte} : Machine.ReservedOp op ↔ shapeOf op = none := by
  rw [shapeOf_eq_none_iff]
  simp only [Machine.ReservedOp, List.mem_cons, List.not_mem_nil, or_false, opDecByte, opEncFrame,
    opPktBuildSum, opPktParseSum, opPktBuildCrc, opPktParseCrc, opSumGen, opSumCheck, opCrcGen,
    opCrcCheck]
  bv_omega

namespace Machine

/-- The step that refuses a command (R65, R66): the response, and nothing else but the bytes
consumed. -/
theorem step_of_refusal {s : State} {op : Byte} {rest : Bytes} (hlegal : s.params.legal = true)
    (hreset : s.resetIn = false)
    (hdecode : decode s.cmdIn = .reservedOp op rest ∨ decode s.cmdIn = .nonZeroField op rest) :
    step s = .next { s with cmdIn := rest, resp := some (unsupported op) } := by
  have hstep : step s = .next ((s.setCmdIn rest).refuseCommand op) := by
    rcases hdecode with h | h <;> simp [step, State.fetch, hlegal, hreset, h]
  exact hstep

/-- A whole command whose header is not accepted is refused under its `op`. -/
theorem step_of_refused {s : State} {w : Word} {body rest : Bytes} (hlegal : s.params.legal = true)
    (hreset : s.resetIn = false) (hcmd : s.cmdIn = wordBytes w ++ (body ++ rest))
    (hlen : commandLength w = 4 + body.length) (hrefused : ¬ AcceptedHeader w) :
    step s = .next { s with cmdIn := rest, resp := some (unsupported (opField w)) } :=
  step_of_refusal hlegal hreset <| hcmd ▸ (decode_command hlen.symm).refusal hrefused

/-- Settles O5: the ranges of R65 are what the opcode map leaves out, and a reserved `op` has no
format, so that its header is not accepted and its body is its data bytes. -/
theorem reservedOpRefused : Obligations.ReservedOpRefused := by
  refine ⟨fun op => reservedOp_iff.trans shapeOf_eq_none_iff, ?_⟩
  intro s w d rest hlegal hreset hop hd hcmd
  have hsh : shapeOf (opField w) = none := reservedOp_iff.mp hop
  rw [List.append_assoc] at hcmd
  refine step_of_refused hlegal hreset hcmd ?_ (not_acceptedHeader_of_reserved hsh)
  rw [commandLength_of_reserved hsh, hd, lenField]

/-- R64: the operations of format FS. -/
theorem shapeOf_fs {op : Byte} (h : op ∈ ([0x10, 0x21, 0x23, 0x30, 0x32] : List Byte)) :
    ∃ mk, shapeOf op = some (.fs mk) := by
  simp only [List.mem_cons, List.not_mem_nil, or_false] at h
  rcases h with rfl | rfl | rfl | rfl | rfl <;> exact ⟨_, rfl⟩

/-- R66: a command of a defined `op` whose must-be-zero field is not 0. -/
theorem step_of_nonZeroField {s : State} {w : Word} {op : Byte} {sh : Shape} {body rest : Bytes}
    (hlegal : s.params.legal = true) (hreset : s.resetIn = false) (hop : opField w = op)
    (hsh : shapeOf op = some sh) (hzero : ¬ sh.ZeroField w) (hbody : body.length = sh.bodyLength w)
    (hcmd : s.cmdIn = wordBytes w ++ (body ++ rest)) :
    step s = .next { s with cmdIn := rest, resp := some (unsupported op) } := by
  subst hop
  refine step_of_refused hlegal hreset hcmd ?_ (mt (acceptedHeader_iff hsh).mp hzero)
  rw [commandLength_of_shape hsh, hbody]

/-- Settles O6: each format has its own must-be-zero field, so that the header is not accepted, and
its own body: nothing in FB, the data bytes in FS, `X` and the data bytes in FC. -/
theorem nonZeroFieldRefused : Obligations.NonZeroFieldRefused := by
  intro s w hlegal hreset
  refine ⟨fun hop hlen rest hcmd => ?_, fun hop himm d rest hd hcmd => ?_,
    fun hop himm x d rest hd hcmd => ?_⟩
  · exact step_of_nonZeroField (sh := .fb .decByte) (body := []) hlegal hreset hop rfl
      (fun hzero => hlen (BitVec.eq_of_toNat_eq hzero)) rfl hcmd
  · obtain ⟨mk, hsh⟩ := shapeOf_fs hop
    rw [List.append_assoc] at hcmd
    exact step_of_nonZeroField hlegal hreset rfl hsh himm hd hcmd
  · have hbody : (wordBytes x ++ d).length = 4 + lenField w := by
      rw [List.length_append, wordBytes_length, hd, lenField]
    rw [List.append_assoc, List.append_assoc, ← List.append_assoc (wordBytes x)] at hcmd
    exact step_of_nonZeroField (sh := .fc .crcCheck) hlegal hreset hop rfl himm hbody hcmd

end Machine

/-! ### The match and mask table (R64) -/

theorem word_eq_iff {w v : Word} :
    w = v ↔ opField w = opField v ∧ imm8Field w = imm8Field v ∧ lenField w = lenField v := by
  refine ⟨by rintro rfl; exact ⟨rfl, rfl, rfl⟩, fun ⟨hop, himm, hlen⟩ => ?_⟩
  rw [← headerWord_of_fields w, hop, himm, hlen, headerWord_of_fields]

theorem opField_and (w v : Word) : opField (w &&& v) = opField w &&& opField v :=
  BitVec.extractLsb'_and

theorem imm8Field_and (w v : Word) : imm8Field (w &&& v) = imm8Field w &&& imm8Field v :=
  BitVec.extractLsb'_and

theorem lenField_and (w v : Word) : lenField (w &&& v) = lenField w &&& lenField v := by
  rw [lenField, BitVec.extractLsb'_and, BitVec.toNat_and, lenField, lenField]

theorem byte_and_max (b : Byte) : b &&& 0xFF#8 = b := BitVec.and_allOnes

theorem lenField_and_max (w : Word) : lenField w &&& 65535 = lenField w :=
  (Nat.and_two_pow_sub_one_eq_mod _ 16).trans (Nat.mod_eq_of_lt (lenField_lt w))

/-- The mnemonic of the operations of a format. -/
def Shape.mnemonic : Shape → String
  | .fb mk => (mk 0).mnemonic
  | .fs mk => (mk []).mnemonic
  | .ft mk => (mk 0 []).mnemonic
  | .fc mk => (mk 0 []).mnemonic

/-- The fields a format fixes: `op`, and its must-be-zero field. -/
def Shape.mask : Shape → Word
  | .fb _ => headerWord 0xFF 0 65535
  | .fs _ => headerWord 0xFF 0xFF 0
  | .ft _ => headerWord 0xFF 0 0
  | .fc _ => headerWord 0xFF 0xFF 0

/-- The row of the match and mask table for the field `op` of a format. -/
def Shape.row (op : Byte) (sh : Shape) : OpcodeRow := ⟨sh.mnemonic, headerWord op 0 0, sh.mask⟩

/-- A row matches the words with its `op` and with 0 in the must-be-zero field. -/
theorem accepts_row_iff {op : Byte} {sh : Shape} {w : Word} :
    (sh.row op).accepts w = true ↔ opField w = op ∧ sh.ZeroField w := by
  simp only [OpcodeRow.accepts, Shape.row, decide_eq_true_eq, word_eq_iff, opField_and,
    imm8Field_and, lenField_and]
  cases sh <;>
    simp [Shape.mask, Shape.ZeroField, lenField_headerWord, byte_and_max, lenField_and_max]

/-- The opcode map's entries are in the table. -/
theorem row_mem_opcodeRows {op : Byte} {sh : Shape} (h : shapeOf op = some sh) :
    sh.row op ∈ opcodeRows := by
  unfold shapeOf at h
  split_ifs at h <;> cases h <;> subst_vars <;> decide

/-- The table's rows are those of the opcode map. -/
theorem eq_row_of_mem_opcodeRows {r : OpcodeRow} (h : r ∈ opcodeRows) :
    ∃ op sh, shapeOf op = some sh ∧ r = sh.row op := by
  simp only [opcodeRows, List.mem_cons, List.not_mem_nil, or_false] at h
  rcases h with rfl | rfl | rfl | rfl | rfl | rfl | rfl | rfl | rfl | rfl
  · exact ⟨opDecByte, _, rfl, rfl⟩
  · exact ⟨opEncFrame, _, rfl, rfl⟩
  · exact ⟨opPktBuildSum, _, rfl, rfl⟩
  · exact ⟨opPktParseSum, _, rfl, rfl⟩
  · exact ⟨opPktBuildCrc, _, rfl, rfl⟩
  · exact ⟨opPktParseCrc, _, rfl, rfl⟩
  · exact ⟨opSumGen, _, rfl, rfl⟩
  · exact ⟨opSumCheck, _, rfl, rfl⟩
  · exact ⟨opCrcGen, _, rfl, rfl⟩
  · exact ⟨opCrcCheck, _, rfl, rfl⟩

/-- A row that matches a word is the row of the word's own format. -/
theorem row_of_accepts {r : OpcodeRow} {w : Word} (hr : r ∈ opcodeRows) (hw : r.accepts w = true) :
    ∃ sh, shapeOf (opField w) = some sh ∧ r = sh.row (opField w) ∧ sh.ZeroField w := by
  obtain ⟨op, sh, hsh, rfl⟩ := eq_row_of_mem_opcodeRows hr
  obtain ⟨rfl, hzero⟩ := accepts_row_iff.mp hw
  exact ⟨sh, hsh, rfl, hzero⟩

/-- An operation's `op` is in the opcode map, under its mnemonic. -/
theorem shapeOf_op (i : Instr) : ∃ sh, shapeOf i.op = some sh ∧ sh.mnemonic = i.mnemonic := by
  cases i <;> exact ⟨_, rfl, rfl⟩

/-- Settles O3: a row that matches a word is fixed by the word's `op`, so there is at most one; and
what the matched words have in common, a defined `op` with 0 in its must-be-zero field, is what the
decoder accepts. -/
theorem opcodeRowsDisjointAndDecoded : Obligations.OpcodeRowsDisjointAndDecoded := by
  refine ⟨fun w => ?_, fun w bs i rest h => ?_, fun w bs ⟨r, hr, hw⟩ hlen => ?_⟩
  · have hnodup : opcodeRows.Nodup := .of_map OpcodeRow.pattern (by decide)
    rw [← List.toFinset_card_of_nodup (hnodup.filter _), Finset.card_le_one]
    simp only [List.mem_toFinset, List.mem_filter]
    rintro r ⟨hr, hrw⟩ q ⟨hq, hqw⟩
    obtain ⟨sh, hsh, rfl, -⟩ := row_of_accepts hr hrw
    obtain ⟨sh', hsh', rfl, -⟩ := row_of_accepts hq hqw
    rw [Option.some.inj (hsh.symm.trans hsh')]
  · rw [decode_wordBytes] at h
    obtain ⟨haccepted, hspelled⟩ := (h ▸ decodeAfterHeader_cases w bs).of_instr
    obtain ⟨sh, hsh, hmnemonic⟩ := shapeOf_op i
    rw [← opField_header, header_of_encode_append hspelled] at hsh
    refine ⟨_, row_mem_opcodeRows hsh, accepts_row_iff.mpr ⟨rfl, ?_⟩, hmnemonic⟩
    exact (acceptedHeader_iff hsh).mp haccepted
  · obtain ⟨sh, hsh, -, hzero⟩ := row_of_accepts hr hw
    rw [decode_wordBytes]
    rcases decodeAfterHeader_cases w bs with ⟨hshort, -⟩ | ⟨body, rest, -, -, hread⟩
    · omega
    · obtain ⟨i, hi⟩ := hread.operation ⟨sh, hsh, hzero⟩
      exact ⟨i, rest, hi⟩

/-- Settles O4: each word's fields select its format. -/
theorem sampleWordsDecode : Obligations.SampleWordsDecode := by
  refine ⟨?_, ?_, ?_, ?_, ?_, ?_⟩ <;> decide

/-! ### The assembler's data lists (R71, R72) -/

namespace Machine

theorem assemble_decStream (bs : Bytes) : (AsmLine.decStream bs).assemble =
    some (bs.flatMap fun b => [0x01, b, 0x00, 0x00]) := by
  have hwf : (bs.map Instr.decByte).all Instr.wf = true := by
    simp [Instr.wf, Instr.data]
  rw [AsmLine.assemble, AsmLine.expand, if_pos hwf, List.flatMap_map]
  simp only [encode_decByte]

theorem feedAll_responds (bs : Bytes) (s : State) :
    ∃ t rs, feedAll bs s = some (t, rs) ∧ rs.length = bs.length := by
  induction bs generalizing s with
  | nil => exact ⟨s, [], rfl, rfl⟩
  | cons b bs ih =>
    obtain ⟨r, hr⟩ := s.feed_responds b
    obtain ⟨t, rs, hfeed, hlen⟩ := ih (s.feed b)
    exact ⟨t, r :: rs, by rw [feedAll_cons bs hr, hfeed]; rfl, congrArg (· + 1) hlen⟩

/-- Settles O11: a line's operations are its definition, each DEC_BYTE has the command of its byte
alone, and by induction on the list each one responds. -/
theorem decStreamIsOneDecBytePerByte : Obligations.DecStreamIsOneDecBytePerByte := by
  refine ⟨fun _ => rfl, fun bs _ => assemble_decStream bs, assemble_decStream [], ?_, ?_⟩
  · rintro (i | bs)
    · exact .inl ⟨i, rfl⟩
    · exact .inr ⟨bs, rfl⟩
  · exact feedAll_responds

/-- Settles O60: the limit tests the operations of a line, and those of a DEC_STREAM have no data
list. -/
theorem dataListLengthLimit : Obligations.DataListLengthLimit := by
  refine ⟨fun i => ?_, fun bs _ => assemble_decStream bs⟩
  simp only [AsmLine.assemble, AsmLine.expand, List.all_cons, List.all_nil, Bool.and_true,
    Instr.wf_iff, List.flatMap_singleton]

end Machine

end Sys2Proof

/-! SUPPORT. The encoder (spec/40_frame_codec.md section 1): the length of a frame, and where DELIM
and ESC stand in it. -/

namespace Sys2Proof.Machine

/-! ### One stuffed byte (R100) -/

/-- A stuffed byte in one formula. -/
theorem stuffByte_eq (p : Params) (b : Byte) :
    stuffByte p b = if b = p.delim ∨ b = p.esc then [p.esc, b ^^^ p.mask] else [b] :=
  if_congr needsEscape_iff rfl rfl

theorem stuffByte_cases (p : Params) (b : Byte) :
    ((b = p.delim ∨ b = p.esc) ∧ stuffByte p b = [p.esc, b ^^^ p.mask]) ∨
    (b ≠ p.delim ∧ b ≠ p.esc ∧ stuffByte p b = [b]) := by
  by_cases h : b = p.delim ∨ b = p.esc
  · exact .inl ⟨h, stuffByte_special h⟩
  · obtain ⟨hdelim, hesc⟩ := not_or.mp h
    exact .inr ⟨hdelim, hesc, stuffByte_plain hdelim hesc⟩

/-! ### Frames under each framing (R101) -/

theorem frame_both {p : Params} (h : p.framing = .both) (d : Bytes) :
    frame p d = p.delim :: (stuff p d ++ [p.delim]) := by
  simp [frame, trailer_eq, h]

theorem frame_leadingOnly {p : Params} (h : p.framing = .leadingOnly) (d : Bytes) :
    frame p d = p.delim :: stuff p d := by
  simp [frame, trailer_eq, h]

/-- Settles O26, by induction on the data. -/
theorem frameStuffsAndDelimits : Obligations.FrameStuffsAndDelimits := by
  refine fun p d => ⟨?_, by rw [frame, trailer_eq]⟩
  induction d with
  | nil => rfl
  | cons b d ih => rw [stuff_cons, stuffByte_eq, ih, List.map_cons, List.flatten_cons]

/-- Settles O27: the operation is its response. -/
theorem encFrameResult : Obligations.EncFrameResult := fun _ _ => rfl

/-! ### Lengths (R102) -/

/-- Each escaped byte costs one byte more. -/
theorem stuff_length (p : Params) (d : Bytes) :
    (stuff p d).length =
      d.length + (d.filter fun b => decide (b = p.delim ∨ b = p.esc)).length := by
  induction d with
  | nil => rfl
  | cons b d ih =>
    rw [stuff_cons, List.length_append, ih, List.length_cons]
    rcases stuffByte_cases p b with ⟨hspecial, hb⟩ | ⟨hdelim, hesc, hb⟩ <;> rw [hb]
    · rw [List.filter_cons_of_pos (by simpa using hspecial)]
      simp only [List.length_cons, List.length_nil]
      omega
    · rw [List.filter_cons_of_neg (by simp [hdelim, hesc]), List.length_singleton]
      omega

/-- Settles O28: the delimiters are counted by the framing, the stuffed bytes by `stuff_length`. -/
theorem encFrameLength : Obligations.EncFrameLength := by
  refine fun p d => ⟨?_, fun hlen => ?_⟩
  · rw [← stuff_length]
    cases h : p.framing
    · simp [frame_both h]
    · simp [frame_leadingOnly h]
  · have hbound := frame_length_le p d
    omega

/-! ### Where DELIM and ESC stand (R103) -/

/-- Stuffing leaves no DELIM: it is escaped, and no masked byte is one (R4). -/
theorem ne_delim_of_mem_stuff {p : Params} (h : p.bytesLegal = true) {d : Bytes} {b : Byte}
    (hb : b ∈ stuff p d) : b ≠ p.delim := by
  induction d with
  | nil => exact absurd hb List.not_mem_nil
  | cons c d ih =>
    rw [stuff_cons, List.mem_append] at hb
    refine hb.elim (fun hb => ?_) ih
    rcases stuffByte_cases p c with ⟨hspecial, hc⟩ | ⟨hdelim, -, hc⟩ <;> rw [hc] at hb
    · rcases List.mem_pair.mp hb with rfl | rfl
      · exact (Params.bytesLegal_iff.mp h).1.symm
      · exact (Params.masked_ne_special h hspecial).1
    · rwa [List.mem_singleton.mp hb]

/-- Stuffing writes ESC only before the masked byte it escapes, which is not ESC (R4). -/
theorem stuff_after_esc {p : Params} (h : p.bytesLegal = true) {d : Bytes} {k : Nat}
    (hk : (stuff p d)[k]? = some p.esc) :
    (stuff p d)[k + 1]? = some (p.delim ^^^ p.mask) ∨
    (stuff p d)[k + 1]? = some (p.esc ^^^ p.mask) := by
  induction d generalizing k with
  | nil => cases hk
  | cons b d ih =>
    rw [stuff_cons] at hk ⊢
    rcases stuffByte_cases p b with ⟨hspecial, hb⟩ | ⟨-, hesc, hb⟩ <;> rw [hb] at hk ⊢
    · match k with
      | 0 => exact hspecial.imp (fun hdelim => by rw [hdelim]; rfl) (fun hesc => by rw [hesc]; rfl)
      | 1 => exact absurd (Option.some.inj hk) (Params.masked_ne_special h hspecial).2
      | k + 2 => exact ih hk
    · match k with
      | 0 => exact absurd (Option.some.inj hk) hesc
      | k + 1 => exact ih hk

/-- What stands in a list stands there with more behind it. -/
theorem getElem?_append_of_eq_some {α : Type} {a : α} {l : List α} {k : Nat} (m : List α)
    (h : l[k]? = some a) : (l ++ m)[k]? = some a := by
  rw [List.getElem?_append_left (List.getElem?_eq_some_iff.mp h).1, h]

/-- Between two marks that stand nowhere else, the marks are at the ends. -/
theorem getElem?_delimited_iff {α : Type} {a : α} {l : List α} (h : a ∉ l) (k : Nat) :
    (a :: (l ++ [a]))[k]? = some a ↔ k = 0 ∨ k + 1 = (a :: (l ++ [a])).length := by
  rcases k with _ | k
  · simp
  · rw [List.getElem?_cons_succ]
    rcases lt_trichotomy k l.length with hlt | rfl | hgt
    · have hne : l[k]? ≠ some a := fun hk => h (List.mem_of_getElem? hk)
      simpa [List.getElem?_append_left hlt, hne] using hlt.ne
    · simp
    · simpa [List.getElem?_eq_none (l := l ++ [a]) (i := k) (by simpa using hgt)] using hgt.ne'

/-- A mark at the head that stands nowhere else. -/
theorem getElem?_headed_iff {α : Type} {a : α} {l : List α} (h : a ∉ l) (k : Nat) :
    (a :: l)[k]? = some a ↔ k = 0 := by
  rcases k with _ | k
  · simp
  · simpa using fun hk => h (List.mem_of_getElem? hk)

/-- Settles O29: the stuffed bytes hold no DELIM, so the delimiters are those of the framing; and
an ESC of the frame is one of the stuffed bytes. -/
theorem delimiterOnlyAtBoundaries : Obligations.DelimiterOnlyAtBoundaries := by
  intro p d hlegal
  have hbytes := Params.bytesLegal_of_legal hlegal
  have hdelim : p.delim ∉ stuff p d := fun hmem => ne_delim_of_mem_stuff hbytes hmem rfl
  have hne : p.delim ≠ p.esc := (Params.bytesLegal_iff.mp hbytes).1
  refine ⟨fun hboth => ?_, fun hleading k => ?_⟩
  · rw [frame_both hboth]
    refine ⟨getElem?_delimited_iff hdelim, fun k hk => ?_⟩
    rcases k with _ | k
    · exact absurd (Option.some.inj hk) hne
    · rw [List.getElem?_cons_succ] at hk ⊢
      have hstuff : (stuff p d)[k]? = some p.esc := by
        rcases lt_or_ge k (stuff p d).length with hlt | hge
        · rwa [List.getElem?_append_left hlt] at hk
        · rw [List.getElem?_append_right hge] at hk
          exact absurd (List.mem_singleton.mp (List.mem_of_getElem? hk)) hne.symm
      exact (stuff_after_esc hbytes hstuff).imp (getElem?_append_of_eq_some _)
        (getElem?_append_of_eq_some _)
  · rw [frame_leadingOnly hleading]
    exact getElem?_headed_iff hdelim k

/-! ### Encode is injective (R114) -/

/-- The first stuffed byte and the rest can be read back. -/
theorem stuffByte_append_inj {p : Params} {b c : Byte} {xs ys : Bytes}
    (h : stuffByte p b ++ xs = stuffByte p c ++ ys) : b = c ∧ xs = ys := by
  rcases stuffByte_cases p b with ⟨-, hb⟩ | ⟨-, hbesc, hb⟩ <;>
    rcases stuffByte_cases p c with ⟨-, hc⟩ | ⟨-, hcesc, hc⟩ <;>
    rw [hb, hc] at h
  · simpa using h
  · exact absurd (List.cons.inj h).1.symm hcesc
  · exact absurd (List.cons.inj h).1 hbesc
  · simpa using h

theorem stuffByte_ne_nil (p : Params) (b : Byte) : stuffByte p b ≠ [] := by
  rw [stuffByte_eq]
  split <;> exact List.cons_ne_nil _ _

theorem stuff_injective (p : Params) : Function.Injective (stuff p) := by
  intro d e h
  induction d generalizing e with
  | nil =>
    rcases e with _ | ⟨c, e⟩
    · rfl
    · exact absurd h.symm (List.append_ne_nil_of_left_ne_nil (stuffByte_ne_nil p c) _)
  | cons b d ih =>
    rcases e with _ | ⟨c, e⟩
    · exact absurd h (List.append_ne_nil_of_left_ne_nil (stuffByte_ne_nil p b) _)
    · obtain ⟨rfl, hrest⟩ := stuffByte_append_inj h
      rw [ih hrest]

theorem frame_injective (p : Params) : Function.Injective (frame p) := fun _ _ h =>
  stuff_injective p (List.append_cancel_left (List.append_cancel_right h))

end Sys2Proof.Machine

/-! SUPPORT. One DEC_BYTE (spec/40_frame_codec.md section 2): an equation per case of R110, and the
short streams put together from them. -/

namespace Sys2Proof

/-- R5: the frame buffer can hold a byte. -/
theorem Params.frameCap_pos_of_legal {p : Params} (h : p.legal = true) : 0 < p.frameCap := by
  simp only [Params.legal, Params.capLegal, Bool.and_eq_true, decide_eq_true_eq] at h
  omega

namespace Machine

/-! ### One byte, an equation per case (R104 to R109) -/

section bytes

variable {s : State} {b : Byte}

theorem State.feed_closes (hbuf : s.buf ≠ []) :
    s.feed s.params.delim =
      { s with dstate := .awaitingFrame, buf := [], esc := false,
               resp := some (emitted s.buf) } := by
  rw [State.feed, if_pos rfl, if_pos (List.length_pos_iff.mpr hbuf)]; rfl

theorem State.feed_opens (hbuf : s.buf = []) :
    s.feed s.params.delim = { s with dstate := .inFrame, esc := false, resp := some quiet } := by
  rw [State.feed, if_pos rfl, if_neg (by simp [hbuf])]; rfl

theorem State.feed_dropped (hawait : s.dstate = .awaitingFrame) (hdelim : b ≠ s.params.delim) :
    s.feed b = { s with resp := some quiet } := by
  rw [State.feed, if_neg hdelim, if_pos hawait]; rfl

theorem State.feed_esc (hin : s.dstate ≠ .awaitingFrame) (hne : s.params.esc ≠ s.params.delim) :
    s.feed s.params.esc = { s with esc := true, resp := some quiet } := by
  rw [State.feed, if_neg hne, if_neg hin, if_pos rfl]; rfl

theorem State.feed_data (hin : s.dstate ≠ .awaitingFrame) (hdelim : b ≠ s.params.delim)
    (hesc : b ≠ s.params.esc) : s.feed b = s.dataByte b := by
  rw [State.feed, if_neg hdelim, if_neg hin, if_neg hesc]

theorem State.dataByte_stored (hroom : s.buf.length ≠ s.params.frameCap) :
    s.dataByte b =
      { s with buf := s.buf ++ [unmask s.params s.esc b], esc := false, resp := some quiet } :=
  ((s.dataByte_cases b).resolve_right fun h => hroom h.1).2

theorem State.dataByte_overflows (hfull : s.buf.length = s.params.frameCap) :
    s.dataByte b =
      { s with dstate := .awaitingFrame, buf := [], esc := false,
               resp := some (overflowed (unmask s.params s.esc b)) } :=
  ((s.dataByte_cases b).resolve_left fun h => h.1 hfull).2

theorem State.feed_stored (hin : s.dstate ≠ .awaitingFrame) (hdelim : b ≠ s.params.delim)
    (hesc : b ≠ s.params.esc) (hroom : s.buf.length ≠ s.params.frameCap) :
    s.feed b =
      { s with buf := s.buf ++ [unmask s.params s.esc b], esc := false, resp := some quiet } :=
  (State.feed_data hin hdelim hesc).trans (State.dataByte_stored hroom)

end bytes

theorem State.ne_awaiting {s : State} (h : s.dstate = .inFrame) : s.dstate ≠ .awaitingFrame := by
  rw [h]; decide

/-- A DELIM acts alike whatever the unmask flag and the last response are (R104, R105). -/
theorem State.feed_delim_congr (s : State) (e : Bool) (r : Option Response) :
    ({ s with esc := e, resp := r } : State).feed s.params.delim = s.feed s.params.delim := by
  by_cases hbuf : s.buf = []
  · rw [State.feed_opens hbuf]
    exact State.feed_opens (s := { s with esc := e, resp := r }) hbuf
  · rw [State.feed_closes hbuf]
    exact State.feed_closes (s := { s with esc := e, resp := r }) hbuf

/-! ### Streams in parts -/

/-- One byte, then a stream whose outcome is known. -/
theorem feedAll_cons_of_feed {b : Byte} {bs : Bytes} {s t u : State} {r : Response}
    {rs : List Response} (hb : s.feed b = t) (hr : t.resp = some r)
    (hbs : feedAll bs t = some (u, rs)) : feedAll (b :: bs) s = some (u, r :: rs) := by
  subst hb
  rw [feedAll_cons bs hr, hbs]; rfl

/-- Two streams whose outcomes are known. -/
theorem feedAll_append_of_feedAll {bs cs : Bytes} {s t u : State} {rs qs : List Response}
    (hbs : feedAll bs s = some (t, rs)) (hcs : feedAll cs t = some (u, qs)) :
    feedAll (bs ++ cs) s = some (u, rs ++ qs) := by
  rw [feedAll_append cs hbs, hcs]; rfl

/-- An ESC and a byte that is neither DELIM nor ESC: the byte is stored unmasked (R107, R108). -/
theorem feedAll_escaped {s : State} {x : Byte} (hin : s.dstate ≠ .awaitingFrame)
    (hne : s.params.esc ≠ s.params.delim) (hdelim : x ≠ s.params.delim) (hesc : x ≠ s.params.esc)
    (hroom : s.buf.length ≠ s.params.frameCap) :
    feedAll [s.params.esc, x] s =
      some ({ s with buf := s.buf ++ [x ^^^ s.params.mask], esc := false, resp := some quiet },
        [quiet, quiet]) := by
  refine feedAll_cons_of_feed (State.feed_esc hin hne) rfl ?_
  exact feedAll_cons_of_feed
    (State.feed_stored (s := { s with esc := true, resp := some quiet }) hin hdelim hesc hroom) rfl
    (feedAll_nil _)

/-! ### The rules of one DEC_BYTE, settled -/

/-- Settles O30: `State.feed_closes`. -/
theorem delimiterClosesFrame : Obligations.DelimiterClosesFrame := fun _ hpos =>
  congrArg Host.Outcome.next (State.feed_closes (List.length_pos_iff.mp hpos))

/-- Settles O31: `State.feed_opens`. -/
theorem delimiterOpensFrame : Obligations.DelimiterOpensFrame := fun _ hbuf =>
  congrArg Host.Outcome.next (State.feed_opens hbuf)

/-- Settles O32: `State.feed_dropped`. -/
theorem awaitingDropsBytes : Obligations.AwaitingDropsBytes := fun _ _ hawait hdelim =>
  congrArg Host.Outcome.next (State.feed_dropped hawait hdelim)

/-- Settles O33: a second ESC finds the flag set and sets it again. -/
theorem escapeSetsUnmaskFlag : Obligations.EscapeSetsUnmaskFlag := by
  refine ⟨fun s hin hne => ?_, fun s x hin hne hdelim hesc hroom => ?_⟩
  · exact congrArg Host.Outcome.next (State.feed_esc (State.ne_awaiting hin) hne)
  · have hin := State.ne_awaiting hin
    exact feedAll_cons_of_feed (State.feed_esc hin hne) rfl
      (feedAll_escaped (s := { s with esc := true, resp := some quiet }) hin hne hdelim hesc
        hroom.ne)

/-- Settles O34: the byte is data, and there is room for it. -/
theorem dataByteUnmaskedAndAppended : Obligations.DataByteUnmaskedAndAppended := by
  intro s b hin hdelim hesc hroom
  exact congrArg Host.Outcome.next
    (State.feed_stored (State.ne_awaiting hin) hdelim hesc hroom)

/-- Settles O35: a full buffer loses the byte; one short of it, the byte fills the buffer and the
DELIM closes it; an ESC stores nothing. -/
theorem overflowResetsDecoder : Obligations.OverflowResetsDecoder := by
  refine ⟨fun s b hin hdelim hesc hfull => ?_, fun s b hin hdelim hesc hlast => ?_,
    fun s hin hne _ => congrArg Host.Outcome.next (State.feed_esc (State.ne_awaiting hin) hne)⟩
  · rw [exec_decByte, State.feed_data (State.ne_awaiting hin) hdelim hesc,
      State.dataByte_overflows hfull, unmask]
  · have hb := State.feed_stored (State.ne_awaiting hin) hdelim hesc (by omega)
    have hclose := feedAll_cons_of_feed hb rfl (feedAll_cons_of_feed
      (State.feed_closes (List.append_ne_nil_of_right_ne_nil _ (List.cons_ne_nil _ _))) rfl
      (feedAll_nil _))
    exact ⟨_, _, by simpa using hlast, hclose⟩

/-- Settles O36, along the cases of R110. -/
theorem decByteOneOfThreeOutcomes : Obligations.DecByteOneOfThreeOutcomes := by
  refine fun s b => ⟨s.feed b, exec_decByte b s, ?_, s.feed_params b, s.feed_cmdIn b,
    s.feed_resetIn b⟩
  rcases s.feed_cases b with ⟨-, hpos, h⟩ | ⟨-, -, h⟩ | ⟨-, -, h⟩ | ⟨-, -, -, h⟩ |
    ⟨hdelim, hin, hesc, h⟩ <;> rw [h]
  · exact .inr <| .inl ⟨rfl, List.length_pos_iff.mp hpos⟩
  · exact .inl rfl
  · exact .inl rfl
  · exact .inl rfl
  · rcases s.dataByte_cases b with ⟨-, h'⟩ | ⟨hfull, h'⟩ <;> rw [h']
    · exact .inl rfl
    · exact .inr <| .inr ⟨_, rfl, hfull, hin, hdelim, hesc⟩

/-- Settles O37: a DELIM does not look at the flag that the ESC has set. -/
theorem escapeThenDelimiterDoesNotAbort : Obligations.EscapeThenDelimiterDoesNotAbort := by
  refine ⟨fun s hin hne => ?_, fun p x hlegal hdelim hesc => ?_⟩
  · exact ⟨_, congrArg Host.Outcome.next (State.feed_esc (State.ne_awaiting hin) hne), rfl,
      congrArg Host.Outcome.next (s.feed_delim_congr true (some quiet))⟩
  · have hne := (Params.bytesLegal_iff.mp (Params.bytesLegal_of_legal hlegal)).1.symm
    have hcap := (Params.frameCap_pos_of_legal hlegal).ne
    have hin : DState.inFrame ≠ .awaitingFrame := by decide
    have hstream := feedAll_cons_of_feed (State.feed_opens (s := State.resetWith p) rfl) rfl <|
      feedAll_cons_of_feed (State.feed_stored hin hdelim hesc hcap) rfl <|
      feedAll_cons_of_feed (State.feed_esc hin hne) rfl <|
      feedAll_cons_of_feed (State.feed_closes (List.cons_ne_nil _ _)) rfl <| feedAll_nil _
    exact ⟨_, hstream, rfl⟩

/-- Settles O38: a DEC_BYTE emits only a buffer that is not empty, and neither a DELIM that opens a
frame nor an ESC fills it. -/
theorem emptyFrameNeverEmitted : Obligations.EmptyFrameNeverEmitted := by
  refine ⟨fun s b => ?_, fun s hbuf => ?_, fun s hbuf hne => ?_⟩
  · obtain ⟨r, hr, -, hcases⟩ := s.feed_response_cases b
    refine ⟨_, r, exec_decByte b s, hr, fun hvalid => ?_⟩
    rcases hcases with ⟨hquiet, -⟩ | ⟨-, -, hdata, hbuf⟩
    · cases hquiet.symm.trans hvalid
    · rwa [hdata]
  · exact feedAll_cons_of_feed (State.feed_opens hbuf) rfl <|
      feedAll_cons_of_feed (State.feed_opens hbuf) rfl <| feedAll_nil _
  · have hin : DState.inFrame ≠ .awaitingFrame := by decide
    exact feedAll_cons_of_feed (State.feed_opens hbuf) rfl <|
      feedAll_cons_of_feed (State.feed_esc hin hne) rfl <|
      feedAll_cons_of_feed (State.feed_opens hbuf) rfl <| feedAll_nil _

end Machine

end Sys2Proof

/-! SUPPORT. Whole streams at the decoder (spec/40_frame_codec.md section 3): the bytes of a stuffed
frame, the stretches it drops, and the frames it emits in order. -/

namespace Sys2Proof.Machine

/-! ### The decoder inside a frame and outside -/

/-- `s` inside a frame, with the bytes `d` of it decoded and no unmask pending. -/
def State.holding (s : State) (d : Bytes) (r : Option Response) : State :=
  { s with dstate := .inFrame, buf := d, esc := false, resp := r }

/-- `s` outside a frame (R24). -/
def State.awaiting (s : State) (r : Option Response) : State :=
  { s with dstate := .awaitingFrame, buf := [], esc := false, resp := r }

theorem State.holding_nil {s : State} (hbuf : s.buf = []) (r : Option Response) :
    s.holding [] r = { s with dstate := .inFrame, esc := false, resp := r } := by
  rw [State.holding, ← hbuf]

theorem State.awaiting_of_empty {s : State} (hbuf : s.buf = []) (r : Option Response) :
    s.awaiting r = { s with dstate := .awaitingFrame, esc := false, resp := r } := by
  rw [State.awaiting, ← hbuf]

theorem State.feed_opens_holding {s : State} (hbuf : s.buf = []) :
    s.feed s.params.delim = s.holding [] (some quiet) :=
  (State.feed_opens hbuf).trans (State.holding_nil hbuf _).symm

/-! ### Stuffed bytes in a frame -/

theorem unmask_masked (p : Params) (b : Byte) : unmask p true (b ^^^ p.mask) = b := by
  simp [unmask]

/-- A masked byte after ESC is the data byte itself (R108). -/
theorem State.dataByte_masked {s : State} (hesc : s.esc = false) (b : Byte) (r : Option Response) :
    ({ s with esc := true, resp := r } : State).dataByte (b ^^^ s.params.mask) =
      s.dataByte b := by
  have hplain : unmask s.params s.esc b = b := by rw [hesc]; rfl
  by_cases hfull : s.buf.length = s.params.frameCap
  · rw [State.dataByte_overflows hfull, hplain,
      State.dataByte_overflows (s := { s with esc := true, resp := r }) hfull, unmask_masked]
  · rw [State.dataByte_stored hfull, hplain,
      State.dataByte_stored (s := { s with esc := true, resp := r }) hfull, unmask_masked]

/-- What stuffing writes for a byte has on the decoder the effect of the byte as data. -/
theorem feedAll_stuffByte {s : State} {b : Byte} {r : Response}
    (hlegal : s.params.bytesLegal = true) (hin : s.dstate ≠ .awaitingFrame) (hesc : s.esc = false)
    (hr : (s.dataByte b).resp = some r) :
    feedAll (stuffByte s.params b) s =
      some (s.dataByte b,
        List.replicate ((stuffByte s.params b).length - 1) quiet ++ [r]) := by
  rcases stuffByte_cases s.params b with ⟨hspecial, hb⟩ | ⟨hbdelim, hbesc, hb⟩ <;> rw [hb]
  · obtain ⟨hmdelim, hmesc⟩ := Params.masked_ne_special hlegal hspecial
    have hne := (Params.bytesLegal_iff.mp hlegal).1.symm
    refine feedAll_cons_of_feed (State.feed_esc hin hne) rfl ?_
    have hmasked := State.feed_data (s := { s with esc := true, resp := some quiet }) hin hmdelim
      hmesc
    exact feedAll_cons_of_feed (hmasked.trans (State.dataByte_masked hesc b _)) hr (feedAll_nil _)
  · exact feedAll_cons_of_feed (State.feed_data hin hbdelim hbesc) hr (feedAll_nil _)

theorem stuffByte_length_pos (p : Params) (b : Byte) : 0 < (stuffByte p b).length :=
  List.length_pos_iff.mpr (stuffByte_ne_nil p b)

/-- The buffer collects stuffed data, as long as there is room for it. -/
theorem feedAll_stuff {s : State} {d e : Bytes} {r : Option Response}
    (hlegal : s.params.bytesLegal = true) (hroom : e.length + d.length ≤ s.params.frameCap) :
    ∃ r', feedAll (stuff s.params d) (s.holding e r) =
      some (s.holding (e ++ d) r', List.replicate (stuff s.params d).length quiet) := by
  induction d generalizing e r with
  | nil => exact ⟨r, by simp⟩
  | cons b d ih =>
    rw [List.length_cons] at hroom
    have hstored : (s.holding e r).dataByte b = s.holding (e ++ [b]) (some quiet) :=
      State.dataByte_stored (s := s.holding e r) (show e.length ≠ s.params.frameCap by omega)
    have hb := feedAll_stuffByte (s := s.holding e r) hlegal (State.ne_awaiting rfl) rfl
      (congrArg State.resp hstored)
    rw [hstored, ← List.replicate_succ', Nat.sub_add_cancel (stuffByte_length_pos _ b)] at hb
    obtain ⟨r', hd⟩ := ih (e := e ++ [b]) (r := some quiet)
      (by simp only [List.length_append, List.length_singleton]; omega)
    refine ⟨r', ?_⟩
    rw [List.append_cons e b d, stuff_cons, List.length_append, List.replicate_add]
    exact feedAll_append_of_feedAll hb hd

/-- A leading delimiter and stuffed data that fit: the decoder holds the data. -/
theorem feedAll_opens_and_collects {s : State} {d : Bytes} (hlegal : s.params.bytesLegal = true)
    (hbuf : s.buf = []) (hroom : d.length ≤ s.params.frameCap) :
    ∃ r, feedAll (s.params.delim :: stuff s.params d) s =
      some (s.holding d r, List.replicate ((stuff s.params d).length + 1) quiet) := by
  obtain ⟨r, hd⟩ := feedAll_stuff (e := []) (r := some quiet) hlegal (by simpa using hroom)
  exact ⟨r, feedAll_cons_of_feed (State.feed_opens_holding hbuf) rfl hd⟩

/-! ### Dropped bytes -/

/-- An awaiting decoder drops a stretch without DELIM (R106). -/
theorem feedAll_dropped {s : State} {g : Bytes} (hawait : s.dstate = .awaitingFrame)
    (hg : ∀ b ∈ g, b ≠ s.params.delim) :
    ∃ r, feedAll g s = some ({ s with resp := r }, List.replicate g.length quiet) := by
  induction g generalizing s with
  | nil => exact ⟨s.resp, rfl⟩
  | cons b g ih =>
    obtain ⟨hb, hg⟩ := List.forall_mem_cons.mp hg
    obtain ⟨r, h⟩ := ih (s := { s with resp := some quiet }) hawait hg
    exact ⟨r, feedAll_cons_of_feed (State.feed_dropped hawait hb) rfl h⟩

/-- The DELIM after a dropped stretch opens a frame (R105). -/
theorem feedAll_dropped_opens {s : State} {g : Bytes} (hawait : s.dstate = .awaitingFrame)
    (hbuf : s.buf = []) (hg : ∀ b ∈ g, b ≠ s.params.delim) :
    feedAll (g ++ [s.params.delim]) s =
      some ({ s with dstate := .inFrame, esc := false, resp := some quiet },
        List.replicate (g.length + 1) quiet) := by
  obtain ⟨r, hdropped⟩ := feedAll_dropped hawait hg
  rw [List.replicate_succ']
  exact feedAll_append_of_feedAll hdropped <|
    feedAll_cons_of_feed (State.feed_opens (s := { s with resp := r }) hbuf) rfl (feedAll_nil _)

/-! ### The round trip (R113) -/

/-- A frame that fits, under BOTH, comes out at its last byte. -/
theorem feedAll_frame {s : State} {d : Bytes} (hlegal : s.params.bytesLegal = true)
    (hboth : s.params.framing = .both) (hbuf : s.buf = []) (hne : d ≠ [])
    (hroom : d.length ≤ s.params.frameCap) :
    feedAll (frame s.params d) s =
      some ({ s with dstate := .awaitingFrame, esc := false, resp := some (emitted d) },
        List.replicate ((frame s.params d).length - 1) quiet ++ [emitted d]) := by
  obtain ⟨r, hcollect⟩ := feedAll_opens_and_collects hlegal hbuf hroom
  have hclose := feedAll_cons_of_feed (State.feed_closes (s := s.holding d r) hne) rfl
    (feedAll_nil _)
  have hcount : (frame s.params d).length - 1 = (stuff s.params d).length + 1 := by
    simp [frame_both hboth]
  rw [hcount, frame_both hboth, ← State.awaiting_of_empty hbuf]
  exact feedAll_append_of_feedAll hcollect hclose

/-- The empty frame, under BOTH, opens a frame twice. -/
theorem feedAll_frame_nil {s : State} (hboth : s.params.framing = .both) (hbuf : s.buf = []) :
    feedAll (frame s.params []) s =
      some ({ s with dstate := .inFrame, esc := false, resp := some quiet }, [quiet, quiet]) := by
  rw [frame_both hboth]
  exact emptyFrameNeverEmitted.2.1 s hbuf

/-- A frame too long by `v` and `d2`, under BOTH: `v` overflows, `d2` is dropped, and the trailing
delimiter opens a frame. -/
theorem feedAll_frame_overflows {s : State} {d1 d2 : Bytes} {v : Byte}
    (hlegal : s.params.bytesLegal = true) (hboth : s.params.framing = .both) (hbuf : s.buf = [])
    (hfull : d1.length = s.params.frameCap) :
    feedAll (frame s.params (d1 ++ v :: d2)) s =
      some ({ s with dstate := .inFrame, esc := false, resp := some quiet },
        List.replicate ((stuff s.params (d1 ++ [v])).length) quiet ++ [overflowed v] ++
          List.replicate ((stuff s.params d2).length + 1) quiet) := by
  obtain ⟨r, hcollect⟩ := feedAll_opens_and_collects hlegal hbuf hfull.le
  have hoverflows : (s.holding d1 r).dataByte v = s.awaiting (some (overflowed v)) :=
    State.dataByte_overflows (s := s.holding d1 r) hfull
  have hv := feedAll_stuffByte (s := s.holding d1 r) hlegal (State.ne_awaiting rfl) rfl
    (congrArg State.resp hoverflows)
  rw [hoverflows] at hv
  have hdropped := feedAll_dropped_opens (s := s.awaiting (some (overflowed v))) rfl rfl
    fun b => ne_delim_of_mem_stuff (d := d2) hlegal
  have hstream := feedAll_append_of_feedAll (feedAll_append_of_feedAll hcollect hv) hdropped
  have hbytes : frame s.params (d1 ++ v :: d2) =
      s.params.delim :: stuff s.params d1 ++ stuffByte s.params v ++
        (stuff s.params d2 ++ [s.params.delim]) := by
    simp [frame_both hboth, stuff_append]
  have hcount : (stuff s.params (d1 ++ [v])).length =
      (stuff s.params d1).length + 1 + ((stuffByte s.params v).length - 1) := by
    have hpos := stuffByte_length_pos s.params v
    simp only [stuff_append, stuff_cons, stuff_nil, List.append_nil, List.length_append]
    omega
  rw [hbytes, hcount, List.replicate_add, List.append_assoc (List.replicate _ _),
    ← State.holding_nil hbuf]
  exact hstream

/-- Settles O39, per length of the data. -/
theorem decodeInvertsEncFrame : Obligations.DecodeInvertsEncFrame := by
  intro s d hlegal hboth hbuf
  have hbytes := Params.bytesLegal_of_legal hlegal
  refine ⟨fun hpos hroom => ?_, ?_, ?_⟩
  · exact feedAll_frame hbytes hboth hbuf (List.length_pos_iff.mp hpos) hroom
  · rintro rfl
    exact feedAll_frame_nil hboth hbuf
  · rintro d1 v d2 rfl hfull
    exact feedAll_frame_overflows hbytes hboth hbuf hfull

/-! ### The frames a stream gives -/

/-- Fed `bs`, the decoder goes from `s` to `t` and emits the frames `fs`. -/
def Decodes (bs : Bytes) (s t : State) (fs : List Bytes) : Prop :=
  ∃ rs, feedAll bs s = some (t, rs) ∧ framesOf rs = fs

theorem Decodes.nil (s : State) : Decodes [] s s [] := ⟨[], rfl, rfl⟩

theorem Decodes.append {bs cs : Bytes} {s t u : State} {fs gs : List Bytes}
    (h : Decodes bs s t fs) (h' : Decodes cs t u gs) : Decodes (bs ++ cs) s u (fs ++ gs) := by
  obtain ⟨rs, hbs, rfl⟩ := h
  obtain ⟨qs, hcs, rfl⟩ := h'
  exact ⟨rs ++ qs, feedAll_append_of_feedAll hbs hcs, framesOf_append rs qs⟩

@[simp] theorem framesOf_replicate_quiet (n : Nat) : framesOf (List.replicate n quiet) = [] := by
  induction n with
  | zero => rfl
  | succ n ih => rw [List.replicate_succ, framesOf_cons_quiet _ rfl, ih]

/-- A stretch that is answered by quiet responses alone emits nothing. -/
theorem Decodes.of_quiet {bs : Bytes} {s t : State} {n : Nat}
    (h : feedAll bs s = some (t, List.replicate n quiet)) : Decodes bs s t [] :=
  ⟨_, h, framesOf_replicate_quiet n⟩

/-- One byte that is answered by a frame emits it. -/
theorem Decodes.of_close {s : State} (hbuf : s.buf ≠ []) :
    Decodes [s.params.delim] s (s.awaiting (some (emitted s.buf))) [s.buf] :=
  ⟨_, feedAll_cons_of_feed (State.feed_closes hbuf) rfl (feedAll_nil _), rfl⟩

theorem Decodes.frame {s : State} {d : Bytes} (hlegal : s.params.bytesLegal = true)
    (hboth : s.params.framing = .both) (hbuf : s.buf = []) (hne : d ≠ [])
    (hroom : d.length ≤ s.params.frameCap) :
    Decodes (Machine.frame s.params d) s
      { s with dstate := .awaitingFrame, esc := false, resp := some (emitted d) } [d] :=
  ⟨_, feedAll_frame hlegal hboth hbuf hne hroom, by
    rw [framesOf_append, framesOf_replicate_quiet]; rfl⟩

/-- The frames of `ds` fit the decoder and are not empty. -/
def FramesFit (p : Params) (ds : List Bytes) : Prop :=
  ∀ d ∈ ds, 1 ≤ d.length ∧ d.length ≤ p.frameCap

/-- Under BOTH, a decoder with an empty buffer emits every frame of a sequence. -/
theorem Decodes.frames {s : State} {ds : List Bytes} (hlegal : s.params.bytesLegal = true)
    (hboth : s.params.framing = .both) (hbuf : s.buf = []) (hds : FramesFit s.params ds) :
    ∃ t, Decodes (ds.flatMap (Machine.frame s.params)) s t ds := by
  induction ds generalizing s with
  | nil => exact ⟨s, .nil s⟩
  | cons d ds ih =>
    obtain ⟨⟨hpos, hroom⟩, hds⟩ := List.forall_mem_cons.mp hds
    obtain ⟨t, hrest⟩ := ih
      (s := { s with dstate := .awaitingFrame, esc := false, resp := some (emitted d) })
      hlegal hboth hbuf hds
    exact ⟨t, (Decodes.frame hlegal hboth hbuf (List.length_pos_iff.mp hpos) hroom).append hrest⟩

/-! ### Resynchronisation (R116) -/

/-- Under BOTH, an awaiting decoder fed the rest of a frame and then whole frames emits these. -/
theorem Decodes.resync {s : State} {g : Bytes} {ds : List Bytes}
    (hlegal : s.params.bytesLegal = true) (hboth : s.params.framing = .both)
    (hawait : s.dstate = .awaitingFrame) (hbuf : s.buf = []) (hg : ∀ b ∈ g, b ≠ s.params.delim)
    (hds : FramesFit s.params ds) :
    ∃ t, Decodes (g ++ [s.params.delim] ++ ds.flatMap (Machine.frame s.params)) s t ds := by
  obtain ⟨t, hframes⟩ := Decodes.frames
    (s := { s with dstate := .inFrame, esc := false, resp := some quiet }) hlegal hboth hbuf hds
  exact ⟨t, (Decodes.of_quiet (feedAll_dropped_opens hawait hbuf hg)).append hframes⟩

/-- Settles O42: a decoder that holds bytes emits them at the leading delimiter of the next frame
and awaits, so that the rest of that frame is what an awaiting decoder resynchronises after. -/
theorem decoderResynchronises : Obligations.DecoderResynchronises := by
  refine ⟨fun s g ds hlegal hboth hawait hbuf hg hds => ?_,
    fun s d ds hlegal hboth hbuf hds => ?_⟩
  · exact Decodes.resync (Params.bytesLegal_of_legal hlegal) hboth hawait hbuf hg hds
  · have hbytes := Params.bytesLegal_of_legal hlegal
    obtain ⟨t, hresync⟩ := Decodes.resync (s := s.awaiting (some (emitted s.buf)))
      hbytes hboth rfl rfl (fun b => ne_delim_of_mem_stuff (d := d) hbytes) hds
    rw [frame_both hboth]
    exact ⟨t, (Decodes.of_close hbuf).append hresync⟩

/-! ### Leading delimiters only (R115) -/

/-- A decoder that holds bytes emits them at a leading delimiter, and loses the data after it. -/
theorem Decodes.lost {s : State} (hlegal : s.params.bytesLegal = true) (hbuf : s.buf ≠ [])
    (d : Bytes) :
    ∃ r, Decodes (s.params.delim :: stuff s.params d) s
      (s.awaiting r) [s.buf] := by
  obtain ⟨r, hdropped⟩ := feedAll_dropped (s := s.awaiting (some (emitted s.buf))) rfl
    fun b => ne_delim_of_mem_stuff (d := d) hlegal
  exact ⟨r, (Decodes.of_close hbuf).append (.of_quiet hdropped)⟩

/-- Under LEADING_ONLY, a decoder with an empty buffer emits the first frame of each two. -/
theorem Decodes.everyOther {s : State} {ds : List Bytes} (hlegal : s.params.bytesLegal = true)
    (hleading : s.params.framing = .leadingOnly) (hbuf : s.buf = [])
    (hds : FramesFit s.params ds) :
    ∃ t, Decodes (ds.flatMap (Machine.frame s.params)) s t (Machine.everyOther ds) := by
  induction ds using Machine.everyOther.induct generalizing s with
  | case1 d e ds ih =>
    obtain ⟨⟨hpos, hroom⟩, hds⟩ := List.forall_mem_cons.mp hds
    obtain ⟨-, hds⟩ := List.forall_mem_cons.mp hds
    obtain ⟨r, hcollect⟩ := feedAll_opens_and_collects hlegal hbuf hroom
    obtain ⟨r', hlost⟩ := Decodes.lost (s := s.holding d r) hlegal (List.length_pos_iff.mp hpos) e
    obtain ⟨t, hrest⟩ := ih (s := s.awaiting r') hlegal hleading rfl hds
    refine ⟨t, ?_⟩
    rw [List.flatMap_cons, List.flatMap_cons, frame_leadingOnly hleading,
      frame_leadingOnly hleading]
    exact (Decodes.of_quiet hcollect).append (hlost.append hrest)
  | case2 d =>
    obtain ⟨⟨-, hroom⟩, -⟩ := List.forall_mem_cons.mp hds
    obtain ⟨r, hcollect⟩ := feedAll_opens_and_collects hlegal hbuf hroom
    rw [List.flatMap_singleton, frame_leadingOnly hleading]
    exact ⟨_, .of_quiet hcollect⟩
  | case3 => exact ⟨s, .nil s⟩

/-- Settles O41: two frames at a time, and a last frame is held until a DELIM closes it. -/
theorem leadingOnlyLosesEveryOtherFrame : Obligations.LeadingOnlyLosesEveryOtherFrame := by
  intro s ds hlegal hleading hbuf hds
  have hbytes := Params.bytesLegal_of_legal hlegal
  refine ⟨Decodes.everyOther hbytes hleading hbuf hds, fun d hd => ?_⟩
  obtain ⟨hpos, hroom⟩ := hds d hd
  obtain ⟨r, hcollect⟩ := feedAll_opens_and_collects hbytes hbuf hroom
  obtain ⟨qs, hclose, hframes⟩ := Decodes.of_close (s := s.holding d r)
    (List.length_pos_iff.mp hpos)
  rw [frame_leadingOnly hleading]
  exact ⟨_, _, _, qs, hcollect, framesOf_replicate_quiet _, hclose, hframes⟩

/-! ### Streams that give one frame (R114) -/

/-- Any number of ESC bytes and a byte that is neither DELIM nor ESC: the byte is stored unmasked,
once (R107). -/
theorem feedAll_escapes {s : State} {x : Byte} (hin : s.dstate ≠ .awaitingFrame)
    (hne : s.params.esc ≠ s.params.delim) (hdelim : x ≠ s.params.delim) (hesc : x ≠ s.params.esc)
    (hroom : s.buf.length ≠ s.params.frameCap) (n : Nat) :
    feedAll (List.replicate n s.params.esc ++ [s.params.esc, x]) s =
      some ({ s with buf := s.buf ++ [x ^^^ s.params.mask], esc := false, resp := some quiet },
        List.replicate (n + 2) quiet) := by
  induction n generalizing s with
  | zero => exact feedAll_escaped hin hne hdelim hesc hroom
  | succ n ih =>
    exact feedAll_cons_of_feed (State.feed_esc hin hne) rfl
      (ih (s := { s with esc := true, resp := some quiet }) hin hne hdelim hesc hroom)

theorem Decodes.escapes {s : State} {x : Byte} (hlegal : s.params.legal = true)
    (hbuf : s.buf = []) (hdelim : x ≠ s.params.delim) (hesc : x ≠ s.params.esc) (n : Nat) :
    ∃ t, Decodes
      (s.params.delim :: (List.replicate n s.params.esc ++ [s.params.esc, x]) ++ [s.params.delim])
      s t [[x ^^^ s.params.mask]] := by
  have hne := (Params.bytesLegal_iff.mp (Params.bytesLegal_of_legal hlegal)).1.symm
  have hstored := feedAll_escapes (s := s.holding [] (some quiet)) (State.ne_awaiting rfl) hne
    hdelim hesc (Params.frameCap_pos_of_legal hlegal).ne n
  have hopened := feedAll_cons_of_feed (State.feed_opens_holding hbuf) rfl hstored
  exact ⟨_, (Decodes.of_quiet (n := n + 3) hopened).append (.of_close (List.cons_ne_nil _ _))⟩

/-- Settles O40: stuffing can be read back, and each stream brings the decoder to hold the one byte
when the trailing delimiter closes its frame. -/
theorem encodeInjectiveDecodeNot : Obligations.EncodeInjectiveDecodeNot := by
  refine ⟨fun p d e _ h => frame_injective p h,
    fun s x g hlegal hboth hawait hbuf hdelim hesc hg stream hstream => ?_⟩
  have hcap := Params.frameCap_pos_of_legal hlegal
  have hbytes := Params.bytesLegal_of_legal hlegal
  have hne : [x ^^^ s.params.mask] ≠ [] := List.cons_ne_nil _ _
  simp only [List.mem_cons, List.not_mem_nil, or_false] at hstream
  rcases hstream with rfl | rfl | rfl | rfl | rfl
  · exact ⟨_, Decodes.frame hbytes hboth hbuf hne hcap⟩
  · exact Decodes.escapes hlegal hbuf hdelim hesc 0
  · exact Decodes.escapes hlegal hbuf hdelim hesc 1
  · obtain ⟨r, hdropped⟩ := feedAll_dropped hawait hg
    exact ⟨_, (Decodes.of_quiet hdropped).append
      (Decodes.frame (s := { s with resp := r }) hbytes hboth hbuf hne hcap)⟩
  · have hopened := feedAll_cons_of_feed (State.feed_opens_holding hbuf) rfl (feedAll_nil _)
    exact ⟨_, (Decodes.of_quiet (n := 1) hopened).append
      (Decodes.frame (s := s.holding [] (some quiet)) hbytes hboth rfl hne hcap)⟩

end Sys2Proof.Machine

/-! SUPPORT. The packets (spec/41_packet.md): the layouts of both variants and the fields a parser
cuts out of them, the byte orders of the CRC field, what each operation answers per layout, and the
path of a packet through the block. -/

namespace Sys2Proof.Machine

/-! ### Subsequences -/

/-- A stretch between two others, cut out by its first and its last index. -/
theorem slice_of_append {r x y z : Bytes} {i j : Nat} (hr : r = x ++ y ++ z) (hi : i = x.length)
    (hj : j + 1 = x.length + y.length) : slice r i j = y := by
  subst hr hi
  rw [slice, hj, ← List.length_append, List.take_left, List.drop_left]

/-- A byte, read at the length of what stands before it. -/
theorem byteAt_of_append {r x z : Bytes} {b : Byte} {i : Nat} (hr : r = x ++ b :: z)
    (hi : i = x.length) : byteAt r i = b := by
  subst hr hi
  simp [byteAt]

/-! ### The CRC field (R137) -/

/-- The low byte comes first under LE, as on the command port. -/
theorem crcField_le (c : Word) : crcField .le c = wordBytes c := rfl

theorem crcField_be (c : Word) : crcField .be c = (wordBytes c).reverse := rfl

theorem crcVal_crcField (o : FieldOrder) (c : Word) : crcVal o (crcField o c) = c := by
  cases o with
  | le => exact word_of_bytes c
  | be => exact word_of_bytes c

theorem crcField_crcVal (o : FieldOrder) {f : Bytes} (hf : f.length = 4) :
    crcField o (crcVal o f) = f := by
  obtain ⟨f0, f1, f2, f3, rfl⟩ := List.length_eq_four.mp hf
  cases o with
  | le => exact (crcField_le _).trans (bytes_of_word f3 f2 f1 f0)
  | be => exact (crcField_be _).trans (congrArg List.reverse (bytes_of_word f0 f1 f2 f3))

/-- A parser may compare the field or its value. -/
theorem crcVal_eq_iff {o : FieldOrder} {f : Bytes} {c : Word} (hf : f.length = 4) :
    crcVal o f = c ↔ f = crcField o c :=
  ⟨fun h => h ▸ (crcField_crcVal o hf).symm, fun h => h ▸ crcVal_crcField o c⟩

/-- Settles O49: the byte orders are the definition; under either, a word is put together from its
four bytes and taken apart into them. -/
theorem crcFieldOrdersAndInverse : Obligations.CrcFieldOrdersAndInverse :=
  ⟨fun _ => ⟨rfl, rfl⟩, crcVal_crcField, fun o _ => crcField_crcVal o⟩

/-! ### The summation checksum -/

theorem byteSum_eq_naturalSum (s : Bytes) : byteSum s = naturalSum s := by
  induction s with
  | nil => rfl
  | cons b s ih => simp [naturalSum, ih]

/-- R161: the checksum of a span is valid for it. -/
theorem sumValid_sum8 (s : Bytes) : sumValid (sum8 s) s = true := by
  rw [sumValid_iff, sum8, BitVec.toNat_ofNat]
  omega

/-! ### The layouts (R130, R131) -/

/-- R130: address, type, payload, checksum. -/
def sumPacket (a t : Byte) (p : Bytes) (k : Byte) : Bytes := [a, t] ++ p ++ [k]

/-- R131: magic, CRC field, type, payload. -/
def crcPacket (m f : Bytes) (t : Byte) (p : Bytes) : Bytes := m ++ f ++ [t] ++ p

@[simp] theorem sumPacket_length (a t : Byte) (p : Bytes) (k : Byte) :
    (sumPacket a t p k).length = p.length + 3 := by
  simp [sumPacket]

theorem crcPacket_length {m f : Bytes} (hm : m.length = 2) (hf : f.length = 4) (t : Byte)
    (p : Bytes) : (crcPacket m f t p).length = p.length + 7 := by
  simp only [crcPacket, List.length_append, List.length_singleton]
  omega

/-- Three bytes or more are a summation packet. -/
theorem exists_eq_sumPacket {r : Bytes} (h : 3 ≤ r.length) :
    ∃ a t p k, r = sumPacket a t p k := by
  match r, h with
  | a :: t :: b :: q, _ =>
    exact ⟨a, t, (b :: q).dropLast, (b :: q).getLast (List.cons_ne_nil b q),
      congrArg ([a, t] ++ ·) (List.dropLast_append_getLast (List.cons_ne_nil b q)).symm⟩

/-- Seven bytes or more are a CRC-framed packet. -/
theorem exists_eq_crcPacket {r : Bytes} (h : 7 ≤ r.length) :
    ∃ m0 m1 f0 f1 f2 f3 t p, r = crcPacket [m0, m1] [f0, f1, f2, f3] t p := by
  match r, h with
  | m0 :: m1 :: f0 :: f1 :: f2 :: f3 :: t :: p, _ => exact ⟨m0, m1, f0, f1, f2, f3, t, p, rfl⟩

/-! ### Building -/

/-- Settles O43: the size test decides, and the rest is the layout. -/
theorem pktBuildSumResult : Obligations.PktBuildSumResult := fun _ _ _ =>
  ⟨fun hfits => if_neg hfits.not_gt, fun hbig => if_pos hbig⟩

/-- Settles O45: the size test decides, and the rest is the layout. -/
theorem pktBuildCrcResult : Obligations.PktBuildCrcResult := fun _ _ _ =>
  ⟨fun hfits => if_neg hfits.not_gt, fun hbig => if_pos hbig⟩

/-! ### Parsing -/

/-- R133 on a packet of the layout of R130. -/
theorem exec_pktParseSum_sumPacket (s : State) (a t : Byte) (p : Bytes) (k : Byte) :
    exec (.pktParseSum (sumPacket a t p k)) s =
      .next (s.respond (
        if s.params.rxAddrOk a = false then { rop := opPktParseSum, status := .invalidHeader }
        else if sumValid k (t :: p) = true then
          { rop := opPktParseSum, rbyte := t, rdata := p, rword := zext32 (sum8 (t :: p)) }
        else { rop := opPktParseSum, status := .checksumMismatch,
               rword := zext32 (sum8 (t :: p)) })) := by
  have haddr : byteAt (sumPacket a t p k) 0 = a := rfl
  have htype : byteAt (sumPacket a t p k) 1 = t := rfl
  have hspan : slice (sumPacket a t p k) 1 (p.length + 3 - 2) = t :: p :=
    slice_of_append (x := [a]) (z := [k]) rfl rfl (by grind)
  have hpayload : slice (sumPacket a t p k) 2 (p.length + 3 - 2) = p :=
    slice_of_append (x := [a, t]) (z := [k]) rfl rfl (by grind)
  have hcheck : byteAt (sumPacket a t p k) (p.length + 3 - 1) = k :=
    byteAt_of_append (x := [a, t] ++ p) rfl (by simp)
  have hlong : ¬ p.length + 3 < 3 := by omega
  simp only [exec, execPktParseSum, sumPacket_length, haddr, htype, hspan, hpayload, hcheck,
    if_neg hlong]
  split_ifs <;> rfl

/-- R135 on a packet of the layout of R131. -/
theorem exec_pktParseCrc_crcPacket (s : State) {m f : Bytes} (hm : m.length = 2)
    (hf : f.length = 4) (t : Byte) (p : Bytes) :
    exec (.pktParseCrc (crcPacket m f t p)) s =
      .next (s.respond (
        if m ≠ s.params.crcMagic then { rop := opPktParseCrc, status := .invalidHeader }
        else if f = crcField s.params.crcFieldOrder (crc32 (t :: p)) then
          { rop := opPktParseCrc, rbyte := t, rdata := p, rword := crc32 (t :: p) }
        else { rop := opPktParseCrc, status := .checksumMismatch, rword := crc32 (t :: p) })) := by
  have hmagic : slice (crcPacket m f t p) 0 1 = m :=
    slice_of_append (x := []) (z := f ++ [t] ++ p) (by simp [crcPacket]) rfl (by simp [hm])
  have hfield : slice (crcPacket m f t p) 2 5 = f :=
    slice_of_append (x := m) (z := [t] ++ p) (by simp [crcPacket]) hm.symm (by omega)
  have htype : byteAt (crcPacket m f t p) 6 = t :=
    byteAt_of_append (x := m ++ f) (z := p) (by simp [crcPacket]) (by simp [hm, hf])
  have hspan : slice (crcPacket m f t p) 6 (p.length + 7 - 1) = t :: p :=
    slice_of_append (x := m ++ f) (z := []) (by simp [crcPacket]) (by simp [hm, hf])
      (by grind)
  have hpayload : slice (crcPacket m f t p) 7 (p.length + 7 - 1) = p :=
    slice_of_append (x := m ++ f ++ [t]) (z := []) (by simp [crcPacket]) (by simp [hm, hf])
      (by grind)
  have hlong : ¬ p.length + 7 < 7 := by omega
  simp only [exec, execPktParseCrc, crcPacket_length hm hf, hmagic, hfield, htype, hspan, hpayload,
    if_neg hlong, ne_eq, crcVal_eq_iff hf]
  split_ifs <;> rfl

/-- Settles O44: a short packet fails the length test, and any other has the layout of R130. -/
theorem pktParseSumResult : Obligations.PktParseSumResult := by
  refine ⟨fun s r hshort => if_pos hshort, fun s a t k p => ?_⟩
  simp only [← byteSum_eq_naturalSum, ← sumValid_iff]
  exact exec_pktParseSum_sumPacket s a t p k

/-- Settles O46: a short packet fails the length test, and any other has the layout of R131. -/
theorem pktParseCrcResult : Obligations.PktParseCrcResult := by
  refine ⟨fun s r hshort => if_pos hshort, fun s m0 m1 f0 f1 f2 f3 t p => ?_⟩
  have hmagic : [m0, m1] ≠ s.params.crcMagic ↔
      m0 ≠ s.params.crcMagic0 ∨ m1 ≠ s.params.crcMagic1 := by
    simp only [ne_eq, Params.crcMagic, List.cons.injEq, and_true, not_and_or]
  simp only [← hmagic]
  exact exec_pktParseCrc_crcPacket s (m := [m0, m1]) (f := [f0, f1, f2, f3]) rfl rfl t p

/-! ### Parsing what was built -/

section built

variable {s : State} {q : Params}

/-- The parser finds the address, type, payload and checksum that a builder under the same
parameters put there. -/
theorem exec_pktParseSum_built (hs : s.params = q) (haddr : q.rxAddrOk q.sumAddr = true) (t : Byte)
    (p : Bytes) :
    exec (.pktParseSum (sumPacket q.sumAddr t p (sum8 (t :: p)))) s =
      .next (s.respond
        { rop := opPktParseSum, rbyte := t, rdata := p, rword := zext32 (sum8 (t :: p)) }) := by
  rw [exec_pktParseSum_sumPacket, hs, if_neg (by simp [haddr]), if_pos (sumValid_sum8 _)]

/-- The parser finds the magic, CRC field, type and payload that a builder under the same
parameters put there. -/
theorem exec_pktParseCrc_built (hs : s.params = q) (t : Byte) (p : Bytes) :
    exec (.pktParseCrc (crcPacket q.crcMagic (crcField q.crcFieldOrder (crc32 (t :: p))) t p)) s =
      .next (s.respond
        { rop := opPktParseCrc, rbyte := t, rdata := p, rword := crc32 (t :: p) }) := by
  rw [exec_pktParseCrc_crcPacket s rfl (crcField_length _ _), hs, if_neg (not_not.mpr rfl),
    if_pos rfl]

end built

/-- Settles O47: building leaves the parameters, so that the parser checks what the builder
wrote. -/
theorem parseInvertsBuild : Obligations.ParseInvertsBuild := by
  refine ⟨fun s t p hfits haddr => ?_, fun s t p hfits => ?_⟩
  · obtain ⟨hbuild, -⟩ := pktBuildSumResult s t p
    exact ⟨_, _, _, _, hbuild hfits, rfl, exec_pktParseSum_built rfl haddr t p, rfl⟩
  · obtain ⟨hbuild, -⟩ := pktBuildCrcResult s t p
    exact ⟨_, _, _, _, hbuild hfits, rfl, exec_pktParseCrc_built rfl t p, rfl⟩

/-! ### No partial results (R136) -/

/-- R136: a full result, or an error that carries its `rword` context alone. -/
def Response.WholeOrEmpty (r : Response) : Prop :=
  r.status = .ok ∨ (r.rdata = [] ∧ r.rbyte = 0x00 ∧ r.fvalid = false ∧
    (r.status = .invalidHeader → r.rword = 0x00000000))

theorem Response.WholeOrEmpty.of_error {op : Byte} {st : Status} {w : Word}
    (hw : st = .invalidHeader → w = 0) : Response.WholeOrEmpty ⟨op, st, false, 0x00, w, []⟩ :=
  .inr ⟨rfl, rfl, rfl, hw⟩

/-- In the state `s` the operation `i` completes with a result that is whole or empty. -/
def NoPartial (i : Instr) (s : State) : Prop :=
  ∃ u r, exec i s = .next u ∧ u.resp = some r ∧ r.WholeOrEmpty

theorem pktBuildSum_noPartial (t : Byte) (p : Bytes) (s : State) :
    NoPartial (.pktBuildSum t p) s := by
  obtain ⟨hbuild, hrefuse⟩ := pktBuildSumResult s t p
  rcases Nat.lt_or_ge s.params.maxPktSum (3 + p.length) with hbig | hfits
  · exact ⟨_, _, hrefuse hbig, rfl, .of_error nofun⟩
  · exact ⟨_, _, hbuild hfits, rfl, .inl rfl⟩

theorem pktBuildCrc_noPartial (t : Byte) (p : Bytes) (s : State) :
    NoPartial (.pktBuildCrc t p) s := by
  obtain ⟨hbuild, hrefuse⟩ := pktBuildCrcResult s t p
  rcases Nat.lt_or_ge s.params.maxPktCrc (7 + p.length) with hbig | hfits
  · exact ⟨_, _, hrefuse hbig, rfl, .of_error nofun⟩
  · exact ⟨_, _, hbuild hfits, rfl, .inl rfl⟩

theorem pktParseSum_noPartial (r : Bytes) (s : State) : NoPartial (.pktParseSum r) s := by
  obtain ⟨hshort, -⟩ := pktParseSumResult
  rcases Nat.lt_or_ge r.length 3 with hlt | hlong
  · exact ⟨_, _, hshort s r hlt, rfl, .of_error fun _ => rfl⟩
  · obtain ⟨a, t, p, k, rfl⟩ := exists_eq_sumPacket hlong
    refine ⟨_, _, exec_pktParseSum_sumPacket s a t p k, rfl, ?_⟩
    split_ifs
    · exact .of_error fun _ => rfl
    · exact .inl rfl
    · exact .of_error nofun

theorem pktParseCrc_noPartial (r : Bytes) (s : State) : NoPartial (.pktParseCrc r) s := by
  obtain ⟨hshort, -⟩ := pktParseCrcResult
  rcases Nat.lt_or_ge r.length 7 with hlt | hlong
  · exact ⟨_, _, hshort s r hlt, rfl, .of_error fun _ => rfl⟩
  · obtain ⟨m0, m1, f0, f1, f2, f3, t, p, rfl⟩ := exists_eq_crcPacket hlong
    refine ⟨_, _, exec_pktParseCrc_crcPacket s rfl rfl t p, rfl, ?_⟩
    split_ifs
    · exact .of_error fun _ => rfl
    · exact .inl rfl
    · exact .of_error nofun

/-- Settles O48, per operation: a builder answers with the packet or nothing, and a parser with the
fields or nothing. -/
theorem noPartialPacketResult : Obligations.NoPartialPacketResult := by
  rintro i (⟨t, p, rfl | rfl⟩ | ⟨r, rfl | rfl⟩) s
  · exact pktBuildSum_noPartial t p s
  · exact pktBuildCrc_noPartial t p s
  · exact pktParseSum_noPartial r s
  · exact pktParseCrc_noPartial r s

/-! ### Through the codec (R138, R139) -/

/-- The packet that `build` responds, encoded and fed to the decoder, is the one frame emitted, and
`parse` takes the type `t` and the payload `p` out of it. -/
def LoopsBack (build : Instr) (parse : Bytes → Instr) (t : Byte) (p : Bytes) (s : State) : Prop :=
  ∃ u1 u2 u3 u4 r1 r2 r4 rs, exec build s = .next u1 ∧ u1.resp = some r1 ∧
    exec (.encFrame r1.rdata) u1 = .next u2 ∧ u2.resp = some r2 ∧
    feedAll r2.rdata u2 = some (u3, rs) ∧ framesOf rs = [r1.rdata] ∧
    exec (parse r1.rdata) u3 = .next u4 ∧ u4.resp = some r4 ∧
    r4.status = .ok ∧ r4.rbyte = t ∧ r4.rdata = p

/-- The codec hands a packet that fits from the builder to the parser, which finds the parameters
unchanged. -/
theorem LoopsBack.of_parse {s : State} {build : Instr} {parse : Bytes → Instr} {r : Response}
    {op t : Byte} {w : Word} {p : Bytes} (hlegal : s.params.legal = true)
    (hboth : s.params.framing = .both) (hbuf : s.buf = [])
    (hbuild : exec build s = .next (s.respond r)) (hne : r.rdata ≠ [])
    (hroom : r.rdata.length ≤ s.params.frameCap)
    (hparse : ∀ u : State, u.params = s.params → exec (parse r.rdata) u =
      .next (u.respond { rop := op, rbyte := t, rdata := p, rword := w })) :
    LoopsBack build parse t p s := by
  have hencode := encFrameResult (s.respond r) r.rdata
  obtain ⟨rs, hfeed, hframes⟩ := Decodes.frame
    (s := { s with resp := some ⟨0x10, .ok, false, 0x00, 0x00000000, frame s.params r.rdata⟩ })
    (Params.bytesLegal_of_legal hlegal) hboth hbuf hne hroom
  exact ⟨_, _, _, _, _, _, _, rs, hbuild, rfl, hencode, rfl, hfeed, hframes, hparse _ rfl, rfl,
    rfl, rfl, rfl⟩

/-- Settles O51: the packet of either builder is not empty and fits, and the parser reads it under
the parameters it was built with. -/
theorem packetSurvivesLoopBack : Obligations.PacketSurvivesLoopBack := by
  intro s t p hlegal hboth hbuf
  refine ⟨fun haddr hfits hroom => ?_, fun hfits hroom => ?_⟩
  · obtain ⟨hbuild, -⟩ := pktBuildSumResult s t p
    have hlength := sumPacket_length s.params.sumAddr t p (sum8 (t :: p))
    exact LoopsBack.of_parse hlegal hboth hbuf (hbuild hfits) (List.cons_ne_nil _ _)
      (hlength.trans_le (by omega)) fun u hu => exec_pktParseSum_built hu haddr t p
  · obtain ⟨hbuild, -⟩ := pktBuildCrcResult s t p
    have hlength := crcPacket_length (m := s.params.crcMagic) rfl
      (crcField_length s.params.crcFieldOrder (crc32 (t :: p))) t p
    exact LoopsBack.of_parse hlegal hboth hbuf (hbuild hfits) (List.cons_ne_nil _ _)
      (hlength.trans_le (by omega)) fun u hu => exec_pktParseCrc_built hu t p

end Sys2Proof.Machine

/-! SUPPORT. The checksums (spec/42_checksums.md): what the four operations answer, SUM8 as the one
checksum byte of a span, and the CRC register, seen bit by bit and from its other end. -/

namespace Sys2Proof.Machine

/-! ### The status of a response -/

/-- In the state `s` the operation `i` completes with the status `st`. -/
def Reports (i : Instr) (s : State) (st : Status) : Prop :=
  ∃ u x, exec i s = .next u ∧ u.resp = some x ∧ x.status = st

theorem Reports.of_exec {i : Instr} {s : State} {r : Response}
    (h : exec i s = .next (s.respond r)) : Reports i s r.status := ⟨_, r, h, rfl, rfl⟩

/-- An operation completes with one status. -/
theorem Reports.iff_eq {i : Instr} {s : State} {st st' : Status} (h : Reports i s st) :
    Reports i s st' ↔ st = st' := by
  refine ⟨fun h' => ?_, fun heq => heq ▸ h⟩
  obtain ⟨u, x, hexec, hresp, rfl⟩ := h
  obtain ⟨u', x', hexec', hresp', rfl⟩ := h'
  obtain rfl : u = u' := Host.Outcome.next.inj (hexec.symm.trans hexec')
  rw [Option.some.inj (hresp.symm.trans hresp')]

/-! ### The summation checksum (R160 to R163) -/

theorem sum8_toNat (d : Bytes) : (sum8 d).toNat = (256 - byteSum d % 256) % 256 := by
  rw [sum8, BitVec.toNat_ofNat, Nat.mod_mod]

/-- R161: no other byte completes the sum to a multiple of 256. -/
theorem sumValid_iff_eq_sum8 {k : Byte} {d : Bytes} : sumValid k d = true ↔ k = sum8 d := by
  rw [sumValid_iff, ← BitVec.toNat_inj, sum8_toNat]
  have := k.isLt
  omega

/-- Settles O52: the two sums are one, and the test of R161 is the model's. -/
theorem checksumByteValidIffSum8 : Obligations.ChecksumByteValidIffSum8 := by
  intro k d
  rw [← byteSum_eq_naturalSum, ← sumValid_iff]
  exact ⟨sum8_toNat d, sumValid_iff_eq_sum8⟩

/-- Settles O53: the response is the definition. -/
theorem sumGenResult : Obligations.SumGenResult := fun _ _ => rfl

/-- Settles O54: the test chooses the status, and either branch responds with the same byte. -/
theorem sumCheckResult : Obligations.SumCheckResult := by
  intro s k d
  rw [← byteSum_eq_naturalSum, exec, execSumCheck]
  simp only [sumValid_iff]
  split_ifs <;> rfl

theorem reports_sumCheck_ok_iff {k : Byte} {d : Bytes} {s : State} :
    Reports (.sumCheck k d) s .ok ↔ k = sum8 d := by
  have hstatus := Reports.of_exec (sumCheckResult s k d)
  rw [hstatus.iff_eq, ← sumValid_iff_eq_sum8, sumValid_iff, byteSum_eq_naturalSum]
  split_ifs with hvalid <;> simp [hvalid]

theorem byteSum_perm {d e : Bytes} (h : d.Perm e) : byteSum d = byteSum e := by
  rw [byteSum_eq_naturalSum, byteSum_eq_naturalSum]
  exact (h.map _).sum_nat

/-- SUM_CHECK depends on its span through the sum alone. -/
theorem exec_sumCheck_congr {d e : Bytes} (h : byteSum d = byteSum e) (s : State) (k : Byte) :
    exec (.sumCheck k d) s = exec (.sumCheck k e) s := by
  simp only [sumCheckResult s k, ← byteSum_eq_naturalSum, sum8, h]

/-- Settles O55: the byte that passes is SUM8 of the span, and neither the order nor a 0x00 byte
changes the sum. -/
theorem sumCheckIgnoresOrderAndZeros : Obligations.SumCheckIgnoresOrderAndZeros := by
  refine ⟨fun s d => ⟨sum8 d, reports_sumCheck_ok_iff.mpr rfl, fun k => reports_sumCheck_ok_iff.mp⟩,
    fun s k d e hperm => ?_, fun s k d e => ?_⟩
  · exact ⟨_, sumCheckResult s k d,
      (exec_sumCheck_congr (byteSum_perm hperm) s k).symm.trans (sumCheckResult s k d)⟩
  · have hsum : byteSum (d ++ e) = byteSum (d ++ 0x00 :: e) := by simp
    exact ⟨_, sumCheckResult s k _, (exec_sumCheck_congr hsum s k).trans (sumCheckResult s k _)⟩

/-! ### The CRC operations (R164 to R167) -/

theorem crcBitSteps_eq_iterate (n : Nat) (c : Word) : crcBitSteps n c = crcBitStep^[n] c := by
  induction n generalizing c with
  | zero => rfl
  | succ n ih => exact ih (crcBitStep c)

/-- Settles O56: the model's steps are the iterated step. -/
theorem crcTableByEightSteps : Obligations.CrcTableByEightSteps := fun n =>
  crcBitSteps_eq_iterate 8 (n.setWidth 32)

/-- Settles O58: the response is the definition. -/
theorem crcGenResult : Obligations.CrcGenResult := fun _ _ => rfl

/-- Settles O59: the test chooses the status, and either branch responds with the same word. -/
theorem crcCheckResult : Obligations.CrcCheckResult := by
  intro s x d
  simp only [exec, execCrcCheck, ne_eq, ite_not]
  split_ifs <;> rfl

/-! ### A table update is eight bit steps -/

theorem zext32_getLsbD (b : Byte) (k : Nat) : (zext32 b).getLsbD k = b.getLsbD k := by
  rw [zext32, BitVec.getLsbD_setWidth, Bool.and_eq_right_iff_imp]
  intro hbit
  have := BitVec.lt_of_getLsbD hbit
  exact decide_eq_true (by omega)

theorem zext32_ushiftRight (b : Byte) : zext32 b >>> 8 = 0#32 := by
  refine BitVec.eq_of_getLsbD_eq fun k _ => ?_
  rw [BitVec.getLsbD_ushiftRight, zext32_getLsbD, BitVec.getLsbD_of_ge b _ (by omega),
    BitVec.getLsbD_zero]

theorem crcBitSteps_succ (n : Nat) (c : Word) :
    crcBitSteps (n + 1) c = crcBitStep (crcBitSteps n c) := by
  simp only [crcBitSteps_eq_iterate, Function.iterate_succ_apply']

/-- Zero bits leave the register without calling for the polynomial. -/
theorem crcBitSteps_of_low_zero {n : Nat} {c : Word} (h : ∀ k < n, c.getLsbD k = false) :
    crcBitSteps n c = c >>> n := by
  induction n with
  | zero => exact (BitVec.ushiftRight_zero c).symm
  | succ n ih =>
    have hbit : (c >>> n).getLsbD 0 = false := by
      rw [BitVec.getLsbD_ushiftRight]
      exact h n n.lt_succ_self
    rw [crcBitSteps_succ, ih fun k hk => h k (hk.trans n.lt_succ_self), crcBitStep, hbit,
      BitVec.shiftRight_add]
    rfl

/-- R165's update step: the byte goes into the low end of the register and eight bit steps follow.
The table gives the steps of the low byte, and the rest is shifted. -/
theorem crcUpdate_eq (c : Word) (b : Byte) : crcUpdate c b = crcBitSteps 8 (c ^^^ zext32 b) := by
  set x := c ^^^ zext32 b with hx
  set low := zext32 (x.extractLsb' 0 8) with hlow
  have hzero : ∀ k < 8, (low ^^^ x).getLsbD k = false := by
    intro k hk
    rw [BitVec.getLsbD_xor, hlow, zext32_getLsbD, BitVec.getLsbD_extractLsb', Nat.zero_add,
      decide_eq_true hk, Bool.true_and, Bool.xor_self]
  have hrest : c >>> 8 = (low ^^^ x) >>> 8 := by
    simp only [hx, hlow, BitVec.ushiftRight_xor_distrib, zext32_ushiftRight, BitVec.xor_zero,
      BitVec.zero_xor]
  calc crcUpdate c b = crcBitSteps 8 low ^^^ c >>> 8 := rfl
    _ = crcBitSteps 8 (low ^^^ (low ^^^ x)) := by
      rw [crcBitSteps_xor, crcBitSteps_of_low_zero hzero, hrest]
    _ = crcBitSteps 8 x := by rw [← BitVec.xor_assoc, BitVec.xor_self, BitVec.zero_xor]

/-! ### The bit-serial register, reflected (R165) -/

theorem reverse_xor {w : Nat} (x y : BitVec w) : (x ^^^ y).reverse = x.reverse ^^^ y.reverse := by
  refine BitVec.eq_of_getLsbD_eq fun i _ => ?_
  simp only [BitVec.getLsbD_reverse, BitVec.getLsbD_xor, BitVec.getMsbD_xor]

theorem reverse_shiftLeft_one {w : Nat} (x : BitVec w) : (x <<< 1).reverse = x.reverse >>> 1 := by
  refine BitVec.eq_of_getLsbD_eq fun i _ => ?_
  simp only [BitVec.getLsbD_reverse, BitVec.getLsbD_ushiftRight, BitVec.getMsbD_shiftLeft]
  congr 1
  omega

theorem crcPoly_eq_reverse : crcPoly = (0x04C11DB7 : Word).reverse := by decide +kernel

/-- A step of the reflected register is a step of the serial one, fed the low bit of what is XORed
in; the bits above it go on waiting. -/
theorem crcBitStep_reverse_xor (reg d : Word) :
    crcBitStep (reg.reverse ^^^ d) = (serialBit reg (d.getLsbD 0)).reverse ^^^ d >>> 1 := by
  have hbit : (reg.reverse ^^^ d).getLsbD 0 = (reg.msb ^^ d.getLsbD 0) := by
    rw [BitVec.getLsbD_xor, BitVec.getLsbD_reverse, BitVec.msb_eq_getMsbD_zero]
  have hshift : (reg.reverse ^^^ d) >>> 1 = (reg <<< 1).reverse ^^^ d >>> 1 := by
    rw [BitVec.ushiftRight_xor_distrib, reverse_shiftLeft_one]
  rw [crcBitStep, serialBit, hbit, hshift, crcPoly_eq_reverse]
  split_ifs
  · rw [reverse_xor, BitVec.xor_comm _ (BitVec.reverse _), BitVec.xor_assoc]
  · rfl

/-- The low `n` bits of `d`, fed to the serial register one after another. -/
theorem crcBitSteps_reverse_xor (n : Nat) (reg d : Word) :
    crcBitSteps n (reg.reverse ^^^ d) =
      ((List.range n).foldl (fun r k => serialBit r (d.getLsbD k)) reg).reverse ^^^ d >>> n := by
  induction n with
  | zero => simp [crcBitSteps]
  | succ n ih =>
    rw [crcBitSteps_succ, ih, crcBitStep_reverse_xor, BitVec.getLsbD_ushiftRight, Nat.add_zero,
      ← BitVec.shiftRight_add, List.range_succ, List.foldl_append, List.foldl_cons, List.foldl_nil]

theorem crcUpdate_reverse (reg : Word) (b : Byte) :
    crcUpdate reg.reverse b = (serialByte reg b).reverse := by
  simp only [crcUpdate_eq, crcBitSteps_reverse_xor, zext32_ushiftRight, zext32_getLsbD, serialByte]
  exact BitVec.xor_zero

theorem crcRun_reverse (reg : Word) (d : Bytes) :
    crcRun reg.reverse d = (d.foldl serialByte reg).reverse := by
  induction d generalizing reg with
  | nil => rfl
  | cons b d ih => rw [crcRun_cons, crcUpdate_reverse, ih, List.foldl_cons]

theorem crc32_eq_serialCrc (d : Bytes) : crc32 d = serialCrc d := by
  have hinit : (0xFFFFFFFF : Word) = (0xFFFFFFFF : Word).reverse := by decide +kernel
  rw [crc32, hinit, crcRun_reverse]
  rfl

theorem crcRun_eq_foldl (c : Word) (d : Bytes) : crcRun c d = d.foldl crcUpdate c := by
  induction d generalizing c with
  | nil => rfl
  | cons b d ih => exact ih (crcUpdate c b)

/-- Settles O57: the run is the fold; reflected, each of its updates is a byte of the serial
register. -/
theorem crc32IsBitSerialCrc : Obligations.Crc32IsBitSerialCrc :=
  ⟨fun d => congrArg (~~~ ·) (crcRun_eq_foldl _ d), crc32_eq_serialCrc, by decide +kernel⟩

end Sys2Proof.Machine

/-! SUPPORT. Error detection (spec/42_checksums.md section 3, R169): a flipped bit changes the sum
and the CRC, and a parser that accepts a packet refuses it with one bit flipped. -/

namespace Sys2Proof.Machine

/-! ### One flipped bit -/

theorem bit_ne_zero {j : Nat} (hj : j < 8) : BitVec.ofNat 8 (2 ^ j) ≠ 0#8 := by
  revert j
  decide

/-- One byte of the sequence is another one, and the rest stays. -/
theorem exists_of_flipBit {r : Bytes} {i j : Nat} (hi : i < r.length) (hj : j < 8) :
    ∃ x b b' z, r = x ++ b :: z ∧ flipBit r i j = x ++ b' :: z ∧ b' ≠ b := by
  obtain ⟨x, b, z, hr, -, hflip⟩ := List.exists_of_modify (· ^^^ BitVec.ofNat 8 (2 ^ j)) hi
  refine ⟨x, b, _, z, hr, hflip, fun hsame => ?_⟩
  rw [xor_eq_iff_mask_eq, BitVec.xor_self] at hsame
  exact bit_ne_zero hj hsame

theorem flipBit_ne {r : Bytes} {i j : Nat} (hi : i < r.length) (hj : j < 8) :
    flipBit r i j ≠ r := by
  obtain ⟨x, b, b', z, rfl, hflip, hne⟩ := exists_of_flipBit hi hj
  rw [hflip]
  simpa using hne

@[simp] theorem flipBit_length (r : Bytes) (i j : Nat) : (flipBit r i j).length = r.length :=
  List.length_modify _ _ _

theorem flipBit_cons_succ (a : Byte) (d : Bytes) (i j : Nat) :
    flipBit (a :: d) (i + 1) j = a :: flipBit d i j := rfl

theorem flipBit_append_left {x : Bytes} {i : Nat} (hi : i < x.length) (y : Bytes) (j : Nat) :
    flipBit (x ++ y) i j = flipBit x i j ++ y := by
  induction x generalizing i with
  | nil => exact absurd hi i.not_lt_zero
  | cons a x ih =>
    cases i with
    | zero => rfl
    | succ i => exact congrArg (a :: ·) (ih (Nat.lt_of_succ_lt_succ hi))

theorem flipBit_append_right {x : Bytes} {i : Nat} (hi : x.length ≤ i) (y : Bytes) (j : Nat) :
    flipBit (x ++ y) i j = x ++ flipBit y (i - x.length) j := by
  obtain ⟨k, rfl⟩ := Nat.exists_eq_add_of_le hi
  rw [Nat.add_sub_cancel_left]
  exact List.modifyTailIdx_add _ k x y

/-! ### What it does to the sum and to the CRC -/

/-- The sum changes by less than 256. -/
theorem byteSum_flipBit_ne {d : Bytes} {i j : Nat} (hi : i < d.length) (hj : j < 8) :
    byteSum (flipBit d i j) % 256 ≠ byteSum d % 256 := by
  obtain ⟨x, b, b', z, rfl, hflip, hne⟩ := exists_of_flipBit hi hj
  rw [hflip]
  simp only [byteSum_append, byteSum_cons]
  have := BitVec.toNat_ne.mp hne
  have := b.isLt
  have := b'.isLt
  omega

/-- A bit step loses nothing: where it shifts out a one, the polynomial's top bit stands where a
shift alone leaves a zero. -/
theorem eq_zero_of_crcBitStep_eq_zero {c : Word} (h : crcBitStep c = 0#32) : c = 0#32 := by
  rw [crcBitStep] at h
  split_ifs at h with hlow
  · have htop := congrArg (BitVec.getLsbD · 31) h
    simp [crcPoly] at htop
  · refine BitVec.eq_of_getLsbD_eq fun k _ => ?_
    cases k with
    | zero => simpa using hlow
    | succ k =>
      have hbit := congrArg (BitVec.getLsbD · k) h
      simpa [Nat.add_comm] using hbit

theorem crcBitStep_injective : Function.Injective crcBitStep := by
  intro c d h
  rw [← BitVec.xor_eq_zero_iff]
  exact eq_zero_of_crcBitStep_eq_zero (by rw [crcBitStep_xor, h, BitVec.xor_self])

theorem crcUpdate_injective (b : Byte) : Function.Injective (crcUpdate · b) := by
  intro c d h
  simp only [crcUpdate_eq, crcBitSteps_eq_iterate] at h
  exact (BitVec.xor_left_inj _).mp (crcBitStep_injective.iterate 8 h)

theorem crcUpdate_byte_injective (c : Word) : Function.Injective (crcUpdate c) := by
  intro b b' h
  simp only [crcUpdate_eq, crcBitSteps_eq_iterate] at h
  have hbyte := (BitVec.xor_right_inj _).mp (crcBitStep_injective.iterate 8 h)
  refine BitVec.eq_of_getLsbD_eq fun k _ => ?_
  rw [← zext32_getLsbD, hbyte, zext32_getLsbD]

theorem crcRun_injective (d : Bytes) : Function.Injective (crcRun · d) := by
  induction d with
  | nil => exact Function.injective_id
  | cons b d ih => exact ih.comp (crcUpdate_injective b)

/-- The byte that differs leaves another register, and what follows keeps the two apart. -/
theorem crc32_flipBit_ne {d : Bytes} {i j : Nat} (hi : i < d.length) (hj : j < 8) :
    crc32 (flipBit d i j) ≠ crc32 d := by
  obtain ⟨x, b, b', z, rfl, hflip, hne⟩ := exists_of_flipBit hi hj
  intro hcrc
  rw [hflip, crc32, crc32, BitVec.not_inj, crcRun_append, crcRun_append] at hcrc
  exact hne (crcUpdate_byte_injective _ (crcRun_injective z hcrc))

/-! ### The parsers -/

theorem crcField_injective (o : FieldOrder) : Function.Injective (crcField o) :=
  Function.LeftInverse.injective (crcVal_crcField o)

/-- R135 as a status: magic, then CRC field, over any part of at least one byte. -/
theorem reports_pktParseCrc (s : State) {m f d : Bytes} (hm : m.length = 2) (hf : f.length = 4)
    (hd : d ≠ []) :
    Reports (.pktParseCrc (m ++ f ++ d)) s
      (if m ≠ s.params.crcMagic then .invalidHeader
       else if f = crcField s.params.crcFieldOrder (crc32 d) then .ok else .checksumMismatch) := by
  obtain ⟨t, p, rfl⟩ := List.exists_cons_of_ne_nil hd
  have hlayout : m ++ f ++ t :: p = crcPacket m f t p := by simp [crcPacket]
  rw [hlayout]
  simpa only [apply_ite Response.status] using
    Reports.of_exec (exec_pktParseCrc_crcPacket s hm hf t p)

/-- A packet that passes R135 is the magic, the CRC field and the part the CRC is taken over. -/
theorem eq_of_reports_pktParseCrc_ok {s : State} {r : Bytes} (h : Reports (.pktParseCrc r) s .ok) :
    ∃ d, d ≠ [] ∧ r = s.params.crcMagic ++ crcField s.params.crcFieldOrder (crc32 d) ++ d := by
  obtain ⟨hshort, -⟩ := pktParseCrcResult
  rcases Nat.lt_or_ge r.length 7 with hlt | hlong
  · exact absurd ((Reports.of_exec (hshort s r hlt)).iff_eq.mp h) nofun
  · obtain ⟨m0, m1, f0, f1, f2, f3, t, p, hr⟩ := exists_eq_crcPacket hlong
    have hsplit : r = [m0, m1] ++ [f0, f1, f2, f3] ++ t :: p := hr
    have hstatus := reports_pktParseCrc s (m := [m0, m1]) (f := [f0, f1, f2, f3]) rfl rfl
      (List.cons_ne_nil t p)
    rw [← hsplit] at hstatus
    have hok := hstatus.iff_eq.mp h
    split_ifs at hok with hmagic hfield
    exact ⟨t :: p, List.cons_ne_nil t p, by rw [← not_not.mp hmagic, ← hfield]; exact hsplit⟩

/-- R133 as a status: address, then the sum of all the bytes after it. -/
theorem reports_pktParseSum (s : State) (a : Byte) {d : Bytes} (hd : 2 ≤ d.length) :
    Reports (.pktParseSum (a :: d)) s
      (if s.params.rxAddrOk a = false then .invalidHeader
       else if byteSum d % 256 = 0 then .ok else .checksumMismatch) := by
  obtain ⟨a', t, p, k, hr⟩ := exists_eq_sumPacket (r := a :: d) (Nat.succ_le_succ hd)
  obtain ⟨rfl, rfl⟩ : a = a' ∧ d = t :: (p ++ [k]) := List.cons.inj hr
  have hsum : byteSum (t :: (p ++ [k])) % 256 = 0 ↔ sumValid k (t :: p) = true := by
    rw [sumValid_iff, ← List.cons_append, byteSum_append, byteSum_cons k, byteSum_nil, add_zero,
      add_comm]
  simp only [hr, hsum]
  simpa only [apply_ite Response.status] using
    Reports.of_exec (exec_pktParseSum_sumPacket s a t p k)

/-- A packet that passes R133 is an accepted address and bytes that sum to a multiple of 256. -/
theorem eq_of_reports_pktParseSum_ok {s : State} {r : Bytes} (h : Reports (.pktParseSum r) s .ok) :
    ∃ a d, 2 ≤ d.length ∧ r = a :: d ∧ s.params.rxAddrOk a ≠ false ∧ byteSum d % 256 = 0 := by
  obtain ⟨hshort, -⟩ := pktParseSumResult
  rcases Nat.lt_or_ge r.length 3 with hlt | hlong
  · exact absurd ((Reports.of_exec (hshort s r hlt)).iff_eq.mp h) nofun
  · obtain ⟨a, d, rfl⟩ := List.exists_cons_of_length_pos (Nat.zero_lt_of_lt hlong)
    have hd : 2 ≤ d.length := Nat.le_of_succ_le_succ hlong
    have hok := (reports_pktParseSum s a hd).iff_eq.mp h
    split_ifs at hok with haddr hsum
    exact ⟨a, d, hd, rfl, haddr, hsum⟩

/-- R169 for PKT_PARSE_CRC: a flip in the magic fails its test; one in the field is no longer the
CRC of the part after it; one in that part changes its CRC. -/
theorem reports_pktParseCrc_flipBit {s : State} {r : Bytes} {i j : Nat}
    (h : Reports (.pktParseCrc r) s .ok) (hi : i < r.length) (hj : j < 8) :
    Reports (.pktParseCrc (flipBit r i j)) s
      (if i < 2 then .invalidHeader else .checksumMismatch) := by
  obtain ⟨d, hd, hr⟩ := eq_of_reports_pktParseCrc_ok h
  set m := s.params.crcMagic with hm
  set f := crcField s.params.crcFieldOrder (crc32 d) with hf
  have hmlen : m.length = 2 := rfl
  have hflen : f.length = 4 := crcField_length _ _
  have hlen : (m ++ f).length = 6 := by rw [List.length_append, hmlen, hflen]
  subst hr
  rcases Nat.lt_or_ge i 2 with hmagic | hmagic
  · rw [if_pos hmagic, List.append_assoc, flipBit_append_left (hmlen ▸ hmagic), ← List.append_assoc]
    have hstatus := reports_pktParseCrc s ((flipBit_length m i j).trans hmlen) hflen hd
    rwa [if_pos (flipBit_ne (hmlen ▸ hmagic) hj)] at hstatus
  rw [if_neg hmagic.not_gt]
  rcases Nat.lt_or_ge i 6 with hfield | hfield
  · have hk : i - 2 < f.length := by omega
    rw [flipBit_append_left (hlen ▸ hfield), flipBit_append_right (hmlen ▸ hmagic), hmlen]
    have hstatus := reports_pktParseCrc s hmlen ((flipBit_length f (i - 2) j).trans hflen) hd
    rwa [if_neg (not_not.mpr hm), if_neg (flipBit_ne hk hj)] at hstatus
  · have hk : i - 6 < d.length := by rw [List.length_append, hlen] at hi; omega
    have hflip : flipBit d (i - 6) j ≠ [] := by
      rwa [← List.length_pos_iff, flipBit_length, List.length_pos_iff]
    rw [flipBit_append_right (hlen ▸ hfield), hlen]
    have hstatus := reports_pktParseCrc s hmlen hflen hflip
    rwa [if_neg (not_not.mpr hm),
      if_neg ((crcField_injective _).ne (crc32_flipBit_ne hk hj).symm)] at hstatus

/-- R169 for PKT_PARSE_SUM: a flip after the address changes the sum modulo 256. -/
theorem reports_pktParseSum_flipBit {s : State} {r : Bytes} {i j : Nat}
    (h : Reports (.pktParseSum r) s .ok) (hpos : 1 ≤ i) (hi : i < r.length) (hj : j < 8) :
    Reports (.pktParseSum (flipBit r i j)) s .checksumMismatch := by
  obtain ⟨a, d, hd, rfl, haddr, hsum⟩ := eq_of_reports_pktParseSum_ok h
  obtain ⟨k, rfl⟩ := Nat.exists_eq_add_of_le' hpos
  have hchanged := byteSum_flipBit_ne (Nat.lt_of_succ_lt_succ hi) hj
  have hstatus := reports_pktParseSum s a (hd.trans_eq (flipBit_length d k j).symm)
  rwa [if_neg haddr, if_neg (hsum ▸ hchanged)] at hstatus

/-- Settles O50, per variant. -/
theorem singleBitFlipDetected : Obligations.SingleBitFlipDetected :=
  ⟨fun _ t _ q _ _ hexec hresp hok hi hj =>
      reports_pktParseCrc_flipBit ⟨t, q, hexec, hresp, hok⟩ hi hj,
    fun _ t _ q _ _ hexec hresp hok hpos hi hj =>
      reports_pktParseSum_flipBit ⟨t, q, hexec, hresp, hok⟩ hpos hi hj⟩

end Sys2Proof.Machine

/-! SUPPORT. Errors (spec/60_exceptions.md): what a status other than OK says about the state, which
operation returns which status and when, and that no error stops the block. -/

namespace Sys2Proof.Machine

/-! ### What an error has written (R204, R209) -/

/-- A DEC_BYTE returns OK, or it overflows and empties the decoder (R204). -/
theorem State.feed_ok_or_overflows (s : State) (b : Byte) :
    (∃ r, (s.feed b).resp = some r ∧ r.status = .ok) ∨
    ∃ v, s.feed b = { s with dstate := .awaitingFrame, buf := [], esc := false,
                             resp := some (overflowed v) } := by
  rcases s.feed_cases b with ⟨-, -, h⟩ | ⟨-, -, h⟩ | ⟨-, -, h⟩ | ⟨-, -, -, h⟩ | ⟨-, -, -, h⟩ <;>
    rw [h]
  · exact .inl ⟨_, rfl, rfl⟩
  · exact .inl ⟨_, rfl, rfl⟩
  · exact .inl ⟨_, rfl, rfl⟩
  · exact .inl ⟨_, rfl, rfl⟩
  · rcases s.dataByte_cases b with ⟨-, h'⟩ | ⟨-, h'⟩ <;> rw [h']
    · exact .inl ⟨_, rfl, rfl⟩
    · exact .inr ⟨_, rfl⟩

/-- R204: BufferOverflow is DEC_BYTE's alone. -/
theorem bufferOverflow_mem_raisable {i : Instr} (h : .bufferOverflow ∈ raisable i) :
    ∃ b, i = .decByte b := by
  cases i with
  | decByte b => exact ⟨b, rfl⟩
  | _ => simp [raisable] at h

/-- Settles O20: the only error of a DEC_BYTE is the overflow; any other operation writes its
response alone, whatever its status; and a refusal is `step_of_refusal`. -/
theorem errorsArePrecise : Obligations.ErrorsArePrecise := by
  refine ⟨fun i s t r hexec hresp herr => ?_, fun _ _ _ => step_of_refusal⟩
  by_cases hi : ∃ b, i = .decByte b
  · obtain ⟨b, rfl⟩ := hi
    cases hexec
    rcases s.feed_ok_or_overflows b with ⟨q, hq, hok⟩ | ⟨v, h⟩
    · cases hq.symm.trans hresp
      exact absurd hok herr
    · rw [h] at hresp ⊢
      cases hresp
      exact ⟨⟨b, rfl⟩, rfl⟩
  · obtain ⟨q, hq⟩ := pureResponse_exists (not_exists.mp hi) s.params
    cases (hq.exec_eq s rfl).symm.trans hexec
    cases hresp
    have hne : r.status ≠ .bufferOverflow := fun hover =>
      hi (bufferOverflow_mem_raisable (hover ▸ hq.status_mem))
    rw [if_neg hne]
    rfl

/-! ### Which operation returns which status, and when (R200, R203, R207, R208) -/

/-- Settles O21: `State.feed_ok_or_overflows` for DEC_BYTE and the status of a `PureResponse` for
every other operation; the codes are the definition. -/
theorem statusesEachOperationReturns : Obligations.StatusesEachOperationReturns := by
  refine ⟨fun i s => ?_, rfl, rfl, rfl, rfl, rfl, rfl⟩
  rcases exec_cases i s with ⟨b, rfl, hfeed⟩ | ⟨r, hr, hrespond⟩
  · rcases s.feed_ok_or_overflows b with ⟨r, hresp, hok⟩ | ⟨v, h⟩
    · exact ⟨_, r, hfeed, hresp, hok ▸ ok_mem_raisable _⟩
    · exact ⟨_, overflowed v, hfeed, by rw [h], by simp [overflowed, raisable]⟩
  · exact ⟨_, r, hrespond, rfl, hr.status_mem⟩

/-- An operation whose status is known completes, and returns `st` exactly when that is `st`. -/
theorem Reports.exists_status_iff {i : Instr} {s : State} {st st' : Status} {P : Prop}
    (h : Reports i s st') (hP : st' = st ↔ P) :
    ∃ t q, exec i s = .next t ∧ t.resp = some q ∧ (q.status = st ↔ P) := by
  obtain ⟨t, q, hexec, hresp, rfl⟩ := h
  exact ⟨t, q, hexec, hresp, hP⟩

/-- Settles O22: a short packet fails the length test; in a longer one the address or the magic
decides before the checksum. -/
theorem invalidHeaderExactlyWhen : Obligations.InvalidHeaderExactlyWhen := by
  obtain ⟨hshortSum, -⟩ := pktParseSumResult
  obtain ⟨hshortCrc, -⟩ := pktParseCrcResult
  refine ⟨fun s r => ?_, fun s r => ?_⟩
  · rcases Nat.lt_or_ge r.length 3 with hlt | hlong
    · exact (Reports.of_exec (hshortSum s r hlt)).exists_status_iff (iff_of_true rfl (.inl hlt))
    · obtain ⟨a, d, rfl⟩ := List.exists_cons_of_length_pos (Nat.zero_lt_of_lt hlong)
      have hd : 2 ≤ d.length := Nat.le_of_succ_le_succ hlong
      refine (reports_pktParseSum s a hd).exists_status_iff ?_
      rw [or_iff_right hlong.not_gt]
      split_ifs with haddr <;> simp [haddr]
  · rcases Nat.lt_or_ge r.length 7 with hlt | hlong
    · exact (Reports.of_exec (hshortCrc s r hlt)).exists_status_iff (iff_of_true rfl (.inl hlt))
    · obtain ⟨m0, m1, f0, f1, f2, f3, t, p, rfl⟩ := exists_eq_crcPacket hlong
      refine (Reports.of_exec (exec_pktParseCrc_crcPacket s rfl rfl t p)).exists_status_iff ?_
      have hmagic : (crcPacket [m0, m1] [f0, f1, f2, f3] t p).take 2 = [m0, m1] := rfl
      rw [hmagic, or_iff_right hlong.not_gt]
      change _ ↔ [m0, m1] ≠ s.params.crcMagic
      split_ifs with hne <;> simp [hne]

/-- An operation that answers OK up to a size and PayloadTooLarge beyond it. -/
theorem exists_payloadTooLarge_iff {i : Instr} {s : State} {r r' : Response} {size limit : Nat}
    (hbuild : size ≤ limit → exec i s = .next (s.respond r)) (hok : r.status = .ok)
    (hrefuse : limit < size → exec i s = .next (s.respond r'))
    (hlarge : r'.status = .payloadTooLarge) :
    ∃ t q, exec i s = .next t ∧ t.resp = some q ∧ (q.status = .payloadTooLarge ↔ size > limit) := by
  rcases Nat.lt_or_ge limit size with hbig | hfits
  · exact (Reports.of_exec (hrefuse hbig)).exists_status_iff (iff_of_true hlarge hbig)
  · exact (Reports.of_exec (hbuild hfits)).exists_status_iff
      (iff_of_false (by simp [hok]) hfits.not_gt)

/-- Settles O23: the size test of either builder decides the status. -/
theorem payloadTooLargeExactlyWhen : Obligations.PayloadTooLargeExactlyWhen := by
  refine ⟨fun s ty p => ?_, fun s ty p => ?_⟩
  · obtain ⟨hbuild, hrefuse⟩ := pktBuildSumResult s ty p
    exact exists_payloadTooLarge_iff hbuild rfl hrefuse rfl
  · obtain ⟨hbuild, hrefuse⟩ := pktBuildCrcResult s ty p
    exact exists_payloadTooLarge_iff hbuild rfl hrefuse rfl

/-! ### No error stops the block (R210, R239) -/

/-- Settles O24, along `step_cases`: every operation completes and leaves the parameters, and a
reset, a refusal and a wait write none. -/
theorem legalInstanceAlwaysSteps : Obligations.LegalInstanceAlwaysSteps := by
  intro s hlegal
  rcases step_cases s with ⟨hillegal, -⟩ | ⟨-, -, hs⟩ | ⟨-, -, hcmd⟩
  · cases hillegal.symm.trans hlegal
  · exact ⟨_, hs, rfl⟩
  · rcases hcmd with ⟨i, rest, -, hs⟩ | ⟨op, rest, -, hs⟩ | ⟨-, hs⟩
    · obtain ⟨t, -, hexec, -⟩ := everyOperationResponds i (s.setCmdIn rest)
      obtain ⟨hparams, -⟩ := exec_keeps_inputs hexec
      exact ⟨t, hs.trans hexec, hparams⟩
    · exact ⟨_, hs, rfl⟩
    · exact ⟨_, hs, rfl⟩

/-- The invariant leaves the reset input to the host. -/
theorem State.Inv.assertReset {s : State} (h : s.Inv) : ({ s with resetIn := true } : State).Inv :=
  ⟨h.legal, h.not_end, h.buf_bound, h.awaiting_empty, h.resp_wf⟩

/-- The invariant holds along every run from a state that meets it. -/
theorem State.Inv.run {s t : State} (h : s.Inv) (hrun : Run s t) : t.Inv := by
  induction hrun with
  | start => exact h
  | step _ hstep ih => exact stepKeepsInvariant _ _ ih hstep
  | issue bs _ ih => exact ih.setCmdIn _
  | assertReset _ ih => exact ih.assertReset

/-- Settles O16: reset meets the invariant, a run keeps it, and it includes a legal elaboration,
which always steps. -/
theorem runsNeverStop : Obligations.RunsNeverStop := by
  intro p s hlegal hrun
  obtain ⟨hreset, -⟩ := resetMeetsInvariant
  have hinv : s.Inv := (hreset p hlegal).run hrun
  obtain ⟨t, hstep, -⟩ := legalInstanceAlwaysSteps s hinv.legal
  exact ⟨hinv, t, hstep⟩

end Sys2Proof.Machine

/-! THEOREM. What a step does while the port holds no whole command. -/

namespace Sys2Proof.Machine

/-! ### Waiting for the host (R239, log 5) -/

/-- Settles O9: the instance is legal and out of reset, and its port decodes to no command, so that
of the steps in `step_cases` only the wait is left. -/
theorem stepWaitsForWholeCommand : Obligations.StepWaitsForWholeCommand := by
  intro s hlegal hreset hwait
  rcases step_cases s with ⟨hillegal, -⟩ | ⟨-, hinreset, -⟩ | ⟨-, -, hcmd⟩
  · cases hillegal.symm.trans hlegal
  · cases hreset.symm.trans hinreset
  · rcases hcmd with ⟨i, rest, hfetch, -⟩ | ⟨op, rest, hfetch | hfetch, -⟩ | ⟨-, hs⟩
    · cases hfetch.symm.trans hwait
    · cases hfetch.symm.trans hwait
    · cases hfetch.symm.trans hwait
    · exact hs

end Sys2Proof.Machine
